-- ==== Sys2Proof/Word.lean ====
section
/-! DEFINITION. The two word types of the engine: the 8-bit value of registers, cells, literals and
indices (10_state R15, R20; 20_memory R41) and the 16-bit instruction word (30_encoding R56). -/

namespace Sys2Proof

/-- An 8-bit unsigned value: a register, a data cell, a literal, an index (R15, R20, R41). -/
abbrev Byte := BitVec 8

/-- A 16-bit instruction word (R56). -/
abbrev Word := BitVec 16

end Sys2Proof
end

