-- ==== Sys2Proof/Config.lean ====
section
/-! DEFINITION. What is fixed for the engine (00_scope R7), and the one free value of the model. The two
OPEN parameters of R7 are not constants: MAX_STEPS is set by the host for each run and stands in State,
ASM_POLICY is an argument of the assembler. -/

namespace Sys2Proof

/-- `DMEM_CELLS`: the number of data-memory cells, addresses 0..63 (R7, R40). -/
def Config.dmemCells : Nat := 64

/-- `IMEM_MAX`: the longest program, in words, and the size of instruction memory (R7, R38). -/
def Config.imemMax : Nat := 255

/-- What an instruction-memory word that the host never wrote holds. FREE VALUE, no body: the spec says
"any value, never read" (93_implementation_defined U11, 92 D33). Safe. Log 6. -/
opaque Config.unloadedWord : Nat → Word

/-- `ASM_POLICY`, the assembler's error policy (R83, 92 D26). -/
inductive AsmPolicy where
  /-- assembly stops at the first line that fails (the default of R83) -/
  | strict
  /-- a line that fails is dropped and takes no index -/
  | legacyDrop
  deriving DecidableEq, Repr

end Sys2Proof
end

