-- ==== Sys2Proof/Syntax.lean ====
section
/-! DEFINITION. The abstract syntax: registers, the 14 opcodes and their formats, the decoded instruction
record (30_encoding R58, R62, R69), its raw form "an opcode plus 0, 1, or 2 integer operands" (R69), and
the fault causes (60_exceptions R122), which the decoder answers with. -/

namespace Sys2Proof

/-- `Reg ::= 0 | 1 | 2 | 3 | 4 | 5` (R69): the index of `R0`..`R5`. -/
abbrev Reg := Fin 6

/-- The 14 mnemonics (R62, R63). -/
inductive Opcode where
  | mov | load | store | add | sub | mul | div | jump | jumpz | and | or | not | xor | hlt
  deriving DecidableEq, Repr

/-- The six word formats (R58). -/
inductive Format where
  | ri | rm | rr | r1 | j | n
  deriving DecidableEq, Repr

/-- The decoded instruction record (R69), one constructor per row of spec/opcode_table.json. Registers are
in 0..5 by construction, as R69 says; addresses and targets take any 8-bit value. -/
inductive Instr where
  | mov (rd : Reg) (lit : Byte)
  | load (rd : Reg) (addr : Byte)
  | store (rs : Reg) (addr : Byte)
  | add (r1 r2 : Reg)
  | sub (r1 r2 : Reg)
  | mul (r1 r2 : Reg)
  | div (r1 r2 : Reg)
  | jump (t : Byte)
  | jumpz (t : Byte)
  | and (r1 r2 : Reg)
  | or (r1 r2 : Reg)
  | not (r1 : Reg)
  | xor (r1 r2 : Reg)
  | hlt
  deriving DecidableEq, Repr

/-- Fault causes (R122). "No cause", code 0, is not among them: a fault always has one of these. -/
inductive Cause where
  /-- code 1: the OP field is 0x0 or 0xE; raised by decode (R65, R66) -/
  | illegalOpcode
  /-- code 2: a register field is 6 or 7, or a must-be-zero field is not zero; raised by decode (R60, R67) -/
  | illegalOperand
  /-- code 3: a data address of 64 or more; raised by LOAD and STORE (R43) -/
  | memRange
  /-- code 4: a jump target of N or more; raised by JUMP and by JUMPZ when taken (R113, R114) -/
  | jumpRange
  deriving DecidableEq, Repr

/-- What an operand position holds: a register name or an 8-bit number (R58, R64). -/
inductive OperandKind where
  | reg | byte
  deriving DecidableEq, Repr

/-- The raw instruction record of the document: "an opcode plus 0, 1, or 2 integer operands" (R69). Not
every raw record is an instruction: WellFormed.lean says which. -/
structure RawRecord where
  opcode : Opcode
  operands : List Int
  deriving DecidableEq, Repr

/-- The opcode of an instruction. -/
def Instr.opcode : Instr → Opcode
  | .mov _ _ => .mov
  | .load _ _ => .load
  | .store _ _ => .store
  | .add _ _ => .add
  | .sub _ _ => .sub
  | .mul _ _ => .mul
  | .div _ _ => .div
  | .jump _ => .jump
  | .jumpz _ => .jumpz
  | .and _ _ => .and
  | .or _ _ => .or
  | .not _ => .not
  | .xor _ _ => .xor
  | .hlt => .hlt

/-- The one format of each opcode (R58). -/
def Opcode.format : Opcode → Format
  | .mov => .ri
  | .load | .store => .rm
  | .add | .sub | .mul | .div | .and | .or | .xor => .rr
  | .not => .r1
  | .jump | .jumpz => .j
  | .hlt => .n

/-- The operands of each format, in source order (R58, R64). -/
def Format.operandKinds : Format → List OperandKind
  | .ri | .rm => [.reg, .byte]
  | .rr => [.reg, .reg]
  | .r1 => [.reg]
  | .j => [.byte]
  | .n => []

end Sys2Proof
end

