-- ==== Sys2Proof/WellFormed.lean ====
section
/-! DEFINITION. Well-formedness. The decoded record `Instr` is well formed by construction (30_encoding
R69). The raw record is well formed when its operand count is its opcode's, every register operand is
in 0..5 and every other operand is an 8-bit value (R69, R58, R14). A program is well formed when it fits
instruction memory (10_state R31, 20_memory R38). Words are judged by the decoder (Decode.lean). -/

namespace Sys2Proof

/-- One operand's range: a register index 0..5 (R60, R69) or an 8-bit value (R59). -/
def OperandKind.admits : OperandKind → Int → Bool
  | .reg, v => decide (0 ≤ v ∧ v ≤ 5)
  | .byte, v => decide (0 ≤ v ∧ v ≤ 255)

/-- The operand count and every operand's range. -/
def operandsWellFormed : List OperandKind → List Int → Bool
  | [], [] => true
  | k :: ks, v :: vs => k.admits v && operandsWellFormed ks vs
  | _, _ => false

/-- The well-formedness check of R69 on a raw record. -/
def RawRecord.wellFormed (r : RawRecord) : Bool :=
  operandsWellFormed r.opcode.format.operandKinds r.operands

/-- A program image fits instruction memory: `0 <= N <= 255` (R31, R144). -/
def programWellFormed (prog : List Word) : Bool :=
  decide (prog.length ≤ Config.imemMax)

end Sys2Proof
end

