-- ==== Sys2Proof/Decode.lean ====
section
/-! DEFINITION. The instruction word (30_encoding R56..R72): its fields, the decoder, total on every word
and rejecting by name, the byte image of a program (20_memory R47), the opcode table as rows of match and
mask (R63), and the encoder (R87). The decoder is written from R70, the rows from R63, the encoder from
R87: three descriptions of one encoding. -/

namespace Sys2Proof

/-! ### Fields of the word (R57) -/

/-- `OP`, `w[15:12]`. -/
def fieldOP (w : Word) : BitVec 4 := w.extractLsb' 12 4
/-- `RA`, `w[11:9]`. -/
def fieldRA (w : Word) : BitVec 3 := w.extractLsb' 9 3
/-- `Z`, `w[8]`. -/
def fieldZ (w : Word) : BitVec 1 := w.extractLsb' 8 1
/-- `IMM8`, `w[7:0]`. -/
def fieldIMM8 (w : Word) : Byte := w.extractLsb' 0 8
/-- `RB`, `w[2:0]`. -/
def fieldRB (w : Word) : BitVec 3 := w.extractLsb' 0 3
/-- `HI5`, `w[7:3]`. -/
def fieldHI5 (w : Word) : BitVec 5 := w.extractLsb' 3 5

/-! ### Codes -/

/-- The opcode codes (R62). -/
def Opcode.code : Opcode → BitVec 4
  | .mov => 0x1
  | .load => 0x2
  | .store => 0x3
  | .add => 0x4
  | .sub => 0x5
  | .mul => 0x6
  | .div => 0x7
  | .jump => 0x8
  | .jumpz => 0x9
  | .and => 0xA
  | .or => 0xB
  | .not => 0xC
  | .xor => 0xD
  | .hlt => 0xF

/-- The opcode of a code (R62); codes 0 and 14 name none (R65, R66). -/
def opcodeOf (c : BitVec 4) : Option Opcode :=
  match c.toNat with
  | 1 => some .mov
  | 2 => some .load
  | 3 => some .store
  | 4 => some .add
  | 5 => some .sub
  | 6 => some .mul
  | 7 => some .div
  | 8 => some .jump
  | 9 => some .jumpz
  | 10 => some .and
  | 11 => some .or
  | 12 => some .not
  | 13 => some .xor
  | 15 => some .hlt
  | _ => none

/-- The register a 3-bit field names: 0..5; 6 and 7 name none (R36, R60). -/
def regOf (k : BitVec 3) : Option Reg :=
  if h : k.toNat < 6 then some ⟨k.toNat, h⟩ else none

/-! ### The decoder (R70) -/

/-- What decoding a word gives: a record, or `Illegal(cause)` (R70). -/
inductive Decoded where
  | instr (i : Instr)
  | illegal (c : Cause)
  deriving DecidableEq, Repr

/-- Formats RI and RM: `reg(ra)` and `z = 0`; operands RA and IMM8. -/
def decodeRegImm (mk : Reg → Byte → Instr) (w : Word) : Option Instr :=
  if fieldZ w = 0 then (regOf (fieldRA w)).map (fun a => mk a (fieldIMM8 w)) else none

/-- Format RR: `reg(ra)`, `z = 0`, `hi5 = 0`, `reg(rb)`; operands RA and RB. -/
def decodeRegReg (mk : Reg → Reg → Instr) (w : Word) : Option Instr :=
  if fieldZ w = 0 ∧ fieldHI5 w = 0 then
    (regOf (fieldRA w)).bind (fun a => (regOf (fieldRB w)).map (fun b => mk a b))
  else none

/-- Format R1: `reg(ra)`, `z = 0`, `imm = 0`; operand RA. -/
def decodeReg (mk : Reg → Instr) (w : Word) : Option Instr :=
  if fieldZ w = 0 ∧ fieldIMM8 w = 0 then (regOf (fieldRA w)).map mk else none

/-- Format J: `ra = 0`, `z = 0`; operand IMM8. -/
def decodeTarget (mk : Byte → Instr) (w : Word) : Option Instr :=
  if fieldRA w = 0 ∧ fieldZ w = 0 then some (mk (fieldIMM8 w)) else none

/-- Format N: `ra = 0`, `z = 0`, `imm = 0`. -/
def decodeNone (i : Instr) (w : Word) : Option Instr :=
  if fieldRA w = 0 ∧ fieldZ w = 0 ∧ fieldIMM8 w = 0 then some i else none

/-- The operand fields of a word whose opcode is legal; `none` where a field check fails (R67, R70). -/
def decodeOperands (op : Opcode) (w : Word) : Option Instr :=
  match op with
  | .mov => decodeRegImm .mov w
  | .load => decodeRegImm .load w
  | .store => decodeRegImm .store w
  | .add => decodeRegReg .add w
  | .sub => decodeRegReg .sub w
  | .mul => decodeRegReg .mul w
  | .div => decodeRegReg .div w
  | .jump => decodeTarget .jump w
  | .jumpz => decodeTarget .jumpz w
  | .and => decodeRegReg .and w
  | .or => decodeRegReg .or w
  | .not => decodeReg .not w
  | .xor => decodeRegReg .xor w
  | .hlt => decodeNone .hlt w

/-- `decode(w)` (R70): total (R71), the opcode judged before the operand fields (R72). -/
def decode (w : Word) : Decoded :=
  match opcodeOf (fieldOP w) with
  | none => .illegal .illegalOpcode
  | some op =>
    match decodeOperands op w with
    | none => .illegal .illegalOperand
    | some i => .instr i

/-! ### Program images as bytes (R47) -/

/-- A word stored as two bytes, most significant byte first (R47, 92 D25). -/
def bytesOfWord (w : Word) : List Byte := [w.extractLsb' 8 8, w.extractLsb' 0 8]

/-- The word two stored bytes make (R47). -/
def wordOfBytes (hi lo : Byte) : Word := hi ++ lo

/-- Decode the first word of a byte image and give the rest; `none` when fewer than two bytes are left. -/
def decodeBytes : List Byte → Option (Decoded × List Byte)
  | hi :: lo :: rest => some (decode (wordOfBytes hi lo), rest)
  | _ => none

/-- The words of a byte image, in index order (R47); `none` for an odd number of bytes. -/
def wordsOfImage : List Byte → Option (List Word)
  | [] => some []
  | hi :: lo :: rest => (wordsOfImage rest).map (wordOfBytes hi lo :: ·)
  | [_] => none

/-- A program as a byte image (R47). -/
def imageOfWords (ws : List Word) : List Byte := ws.flatMap bytesOfWord

/-- The instruction this decoder reads from a table word of `nbits` bits (spec/opcode_table.json: every row
has one 16-bit word, bit 0 the least significant); `none` where the decoder refuses it. -/
def decodeTableWord (nbits w : Nat) : Option Instr :=
  if nbits ≤ 16 ∧ w < 2 ^ nbits then
    match decode (BitVec.ofNat 16 w) with
    | .instr i => some i
    | .illegal _ => none
  else none

/-! ### The opcode table as rows (R63) -/

/-- A row of the table of R63: the fixed bits as match and mask, and which register fields it has. -/
structure TableRow where
  opcode : Opcode
  pattern : Word
  mask : Word
  hasRA : Bool
  hasRB : Bool
  deriving DecidableEq, Repr

/-- The 14 rows of R63, in its order. -/
def opcodeRows : List TableRow :=
  [ ⟨.mov, 0x1000, 0xF100, true, false⟩,
    ⟨.load, 0x2000, 0xF100, true, false⟩,
    ⟨.store, 0x3000, 0xF100, true, false⟩,
    ⟨.add, 0x4000, 0xF1F8, true, true⟩,
    ⟨.sub, 0x5000, 0xF1F8, true, true⟩,
    ⟨.mul, 0x6000, 0xF1F8, true, true⟩,
    ⟨.div, 0x7000, 0xF1F8, true, true⟩,
    ⟨.jump, 0x8000, 0xFF00, false, false⟩,
    ⟨.jumpz, 0x9000, 0xFF00, false, false⟩,
    ⟨.and, 0xA000, 0xF1F8, true, true⟩,
    ⟨.or, 0xB000, 0xF1F8, true, true⟩,
    ⟨.xor, 0xD000, 0xF1F8, true, true⟩,
    ⟨.not, 0xC000, 0xF1FF, true, false⟩,
    ⟨.hlt, 0xF000, 0xFFFF, false, false⟩ ]

/-- A word is an instruction of this row: its fixed bits match, and "every register field `a` and `b` it
has must be 0..5" (R63). -/
def TableRow.accepts (r : TableRow) (w : Word) : Bool :=
  (w &&& r.mask == r.pattern) && (!r.hasRA || decide ((fieldRA w).toNat ≤ 5)) &&
    (!r.hasRB || decide ((fieldRB w).toNat ≤ 5))

/-! ### The encoder (R87) -/

/-- `w = (OP << 12) | (RA << 9) | IMM8` (R87). -/
def packWord (op : BitVec 4) (ra : BitVec 3) (imm : Byte) : Word :=
  (op.setWidth 16 <<< 12) ||| (ra.setWidth 16 <<< 9) ||| imm.setWidth 16

/-- A register's 3-bit field. -/
def regField (r : Reg) : BitVec 3 := BitVec.ofNat 3 r.val

/-- A register as an `IMM8` value, the RB field with HI5 = 0 (R87, row RR). -/
def regImm (r : Reg) : Byte := BitVec.ofNat 8 r.val

/-- The word of an instruction (R87). -/
def encode (i : Instr) : Word :=
  match i with
  | .mov d lit => packWord i.opcode.code (regField d) lit
  | .load d a => packWord i.opcode.code (regField d) a
  | .store r a => packWord i.opcode.code (regField r) a
  | .add a b => packWord i.opcode.code (regField a) (regImm b)
  | .sub a b => packWord i.opcode.code (regField a) (regImm b)
  | .mul a b => packWord i.opcode.code (regField a) (regImm b)
  | .div a b => packWord i.opcode.code (regField a) (regImm b)
  | .jump t => packWord i.opcode.code 0 t
  | .jumpz t => packWord i.opcode.code 0 t
  | .and a b => packWord i.opcode.code (regField a) (regImm b)
  | .or a b => packWord i.opcode.code (regField a) (regImm b)
  | .not a => packWord i.opcode.code (regField a) 0
  | .xor a b => packWord i.opcode.code (regField a) (regImm b)
  | .hlt => packWord i.opcode.code 0 0

/-! ### Raw records (R69) -/

/-- The instruction a raw record denotes; `none` where it is not well formed (R69). -/
def RawRecord.toInstr (r : RawRecord) : Option Instr :=
  if r.wellFormed then
    match r.opcode, r.operands with
    | .mov, [d, v] => some (.mov (Fin.ofNat 6 d.toNat) (BitVec.ofInt 8 v))
    | .load, [d, v] => some (.load (Fin.ofNat 6 d.toNat) (BitVec.ofInt 8 v))
    | .store, [d, v] => some (.store (Fin.ofNat 6 d.toNat) (BitVec.ofInt 8 v))
    | .add, [a, b] => some (.add (Fin.ofNat 6 a.toNat) (Fin.ofNat 6 b.toNat))
    | .sub, [a, b] => some (.sub (Fin.ofNat 6 a.toNat) (Fin.ofNat 6 b.toNat))
    | .mul, [a, b] => some (.mul (Fin.ofNat 6 a.toNat) (Fin.ofNat 6 b.toNat))
    | .div, [a, b] => some (.div (Fin.ofNat 6 a.toNat) (Fin.ofNat 6 b.toNat))
    | .jump, [t] => some (.jump (BitVec.ofInt 8 t))
    | .jumpz, [t] => some (.jumpz (BitVec.ofInt 8 t))
    | .and, [a, b] => some (.and (Fin.ofNat 6 a.toNat) (Fin.ofNat 6 b.toNat))
    | .or, [a, b] => some (.or (Fin.ofNat 6 a.toNat) (Fin.ofNat 6 b.toNat))
    | .not, [a] => some (.not (Fin.ofNat 6 a.toNat))
    | .xor, [a, b] => some (.xor (Fin.ofNat 6 a.toNat) (Fin.ofNat 6 b.toNat))
    | .hlt, [] => some .hlt
    | _, _ => none
  else none

/-- The raw record of an instruction: its opcode and its operands as integers, in source order. -/
def Instr.toRaw (i : Instr) : RawRecord :=
  match i with
  | .mov d v => ⟨i.opcode, [(d.val : Int), (v.toNat : Int)]⟩
  | .load d v => ⟨i.opcode, [(d.val : Int), (v.toNat : Int)]⟩
  | .store d v => ⟨i.opcode, [(d.val : Int), (v.toNat : Int)]⟩
  | .add a b => ⟨i.opcode, [(a.val : Int), (b.val : Int)]⟩
  | .sub a b => ⟨i.opcode, [(a.val : Int), (b.val : Int)]⟩
  | .mul a b => ⟨i.opcode, [(a.val : Int), (b.val : Int)]⟩
  | .div a b => ⟨i.opcode, [(a.val : Int), (b.val : Int)]⟩
  | .jump t => ⟨i.opcode, [(t.toNat : Int)]⟩
  | .jumpz t => ⟨i.opcode, [(t.toNat : Int)]⟩
  | .and a b => ⟨i.opcode, [(a.val : Int), (b.val : Int)]⟩
  | .or a b => ⟨i.opcode, [(a.val : Int), (b.val : Int)]⟩
  | .not a => ⟨i.opcode, [(a.val : Int)]⟩
  | .xor a b => ⟨i.opcode, [(a.val : Int), (b.val : Int)]⟩
  | .hlt => ⟨i.opcode, []⟩

end Sys2Proof
end

