-- ==== Sys2Proof/Machine/State.lean ====
section
/-! DEFINITION. The state of the engine (10_state, 20_memory), the model's two ways for a step to stop, and
the state after reset (10_state R33). All plain data. -/

namespace Sys2Proof.Machine

/-- The six general registers `R0`..`R5` (R15). -/
abbrev RegFile := Vector Byte 6

/-- Data memory: the cells that do not hold 0, addresses strictly rising, all below 64. A cell that is not
listed reads 0, its value at reset (R33, R40, R44). `Memory.wf` (Ops.lean) states the form. -/
abbrev Memory := List Host.Cell

/-- Instruction memory: the words the host has loaded, by index, indices strictly rising, all below 255
(R38). It is addressed by word index, not by byte, so its entries are not `Host.Cell`s. -/
abbrev ProgMemory := List (Nat × Word)

/-- `STATE` (R28). The reserved codes 5..7 are never held and have no constructor (log 9). -/
inductive RunStatus where
  /-- code 0: the run has not ended -/
  | running
  /-- code 1: HLT executed -/
  | halted
  /-- code 2: `pc` reached `N` -/
  | ended
  /-- code 3: a fatal fault -/
  | fault
  /-- code 4: the step budget ran out -/
  | budget
  deriving DecidableEq, Repr

/-- An entry of the execution trace (R99). -/
inductive TraceEntry where
  /-- `Exec(insn, regs)`: the instruction just executed and the six registers after it (R97) -/
  | exec (insn : Instr) (regs : RegFile)
  /-- `DivByZero`: a DIV found a zero divisor (R100) -/
  | divByZero
  deriving DecidableEq, Repr

/-- The whole state of the engine. -/
structure State where
  /-- `x[0]`..`x[5]` (R15) -/
  regs : RegFile
  /-- data memory (R40) -/
  dmem : Memory
  /-- instruction memory, host-written (R38) -/
  imem : ProgMemory
  /-- `N`, the program length, host-written (R31) -/
  progLen : Byte
  /-- the program counter, an instruction index (R20) -/
  pc : Byte
  /-- the zero flag (R23) -/
  zf : Bool
  /-- `STATE`, the run status (R28) -/
  status : RunStatus
  /-- `CAUSE`; `none` is the spec's code 0, "no fault" (R29, R122) -/
  cause : Option Cause
  /-- `FPC`, the pc of the faulting instruction (R29) -/
  fpc : Byte
  /-- `FWORD`, the faulting instruction word (R29) -/
  fword : Word
  /-- `STEPS`, the number of completed instructions (R30) -/
  steps : Nat
  /-- `MAX_STEPS`, the step budget, host-written (R7, R90, R144) -/
  maxSteps : Nat
  /-- the execution trace, oldest entry first (R32) -/
  trace : List TraceEntry
  deriving DecidableEq, Repr

/-- Why a step has no next state. Neither is raised by an instruction: the spec's own faults are next
states with `STATE = FAULT` (R126). Both are safe. -/
inductive Fault where
  /-- raised by `step` when `STATE` is not RUNNING: "the engine has no step" (R103). Safe. Log 4. -/
  | notRunning (status : RunStatus)
  /-- raised by `step` when `pc > N`, a state no run reaches (R22): `IMemRead` has no meaning there. Safe.
  Log 5. -/
  | fetchBeyondProgram
  deriving DecidableEq, Repr

/-- Why an instruction has no meaning. -/
inductive Refusal where
  /-- raised by an arm of `exec` whose instruction has no meaning yet; no arm raises it. Safe. -/
  | notModelled (mnemonic : String)
  deriving DecidableEq, Repr

/-- The state after reset (R33, R142). The host's three inputs, which reset does not give, are empty here:
no program, `N = 0`, `MAX_STEPS = 0` (DESIGN CHOICE, log 2 and 3); `State.launch` sets them. -/
def State.reset : State where
  regs := #v[0, 0, 0, 0, 0, 0]
  dmem := []
  imem := []
  progLen := 0
  pc := 0
  zf := false
  status := .running
  cause := none
  fpc := 0
  fword := 0
  steps := 0
  maxSteps := 0
  trace := []

end Sys2Proof.Machine
end

