-- ==== Sys2Proof/Machine/Flags.lean ====
section
/-! DEFINITION. The one flag of the engine, the zero flag (10_state R23..R26), and the host-visible codes
of the run status and the fault cause (R28, R29). -/

namespace Sys2Proof.Machine

/-- The zero detector `zd` of the register file (R18): some register holds 0. -/
def zeroDetect (x : RegFile) : Bool :=
  x[0] == 0 || x[1] == 0 || x[2] == 0 || x[3] == 0 || x[4] == 0 || x[5] == 0

/-- Zero-flag recomputation `zf <- zd` over the current registers (R96). -/
def State.recomputeZf (s : State) : State := { s with zf := zeroDetect s.regs }

/-- The code of `STATE`, 3 bits (R28). -/
def statusCode : RunStatus → BitVec 3
  | .running => 0
  | .halted => 1
  | .ended => 2
  | .fault => 3
  | .budget => 4

/-- The code of `CAUSE`, 3 bits (R29, R122). -/
def causeCode : Option Cause → BitVec 3
  | none => 0
  | some .illegalOpcode => 1
  | some .illegalOperand => 2
  | some .memRange => 3
  | some .jumpRange => 4

end Sys2Proof.Machine
end

