-- ==== Sys2Proof/Machine/Operands.lean ====
section
/-! DEFINITION. The operand checks made at execution (20_memory R43, 43_control R113). Register operands
and immediates need none: decode has settled them (30_encoding R59, R60). -/

namespace Sys2Proof.Machine

/-- The data address check (R43): an 8-bit address of at most 63 gives the 6-bit cell address
`IMM8[5:0]` (R44, R61); 64 and up name no cell. -/
def dataAddr (a : Byte) : Option (BitVec 6) :=
  if a.toNat ≤ 63 then some (a.extractLsb' 0 6) else none

/-- The jump target check (R113): a target is in range when `t < N`. -/
def targetInRange (t : Byte) (progLen : Byte) : Bool := decide (t.toNat < progLen.toNat)

end Sys2Proof.Machine
end

