-- ==== Sys2Proof/Machine/Ops.lean ====
section
/-! DEFINITION. The shared operations: cells by key, data and instruction memory, the register ports, fetch,
the terminal transitions, fault entry, the bookkeeping, and the commit of an instruction's effect
(40_execution_cycle). The engine has no handler and no return from a fault (60_exceptions R131, R132), so
beside fault entry no return operation stands. -/

namespace Sys2Proof.Machine

/-! ### Cells by key -/

/-- The value listed at a key. -/
def cellLookup {α : Type} : List (Nat × α) → Nat → Option α
  | [], _ => none
  | (k, v) :: l, a => if k = a then some v else cellLookup l a

/-- The list without a key. -/
def cellErase {α : Type} (l : List (Nat × α)) (a : Nat) : List (Nat × α) :=
  l.filter (fun c => c.1 != a)

/-- A new entry, put before the first larger key. -/
def cellInsert {α : Type} : List (Nat × α) → Nat → α → List (Nat × α)
  | [], a, v => [(a, v)]
  | (k, u) :: l, a, v => if a < k then (a, v) :: (k, u) :: l else (k, u) :: cellInsert l a v

/-- Keys strictly rising. -/
abbrev cellsRising {α : Type} (l : List (Nat × α)) : Prop :=
  l.Pairwise (fun c d => c.1 < d.1)

/-! ### Data memory (20_memory) -/

/-- `MemRead(a, 1)`: "the value last written to cell a in this run, or 0 if none was" (R44). -/
def Memory.read (m : Memory) (a : Nat) : Byte := (cellLookup m a).getD 0

/-- `MemWrite(a, 1, v)` (R44), in canonical form: writing 0 removes the entry. -/
def Memory.write (m : Memory) (a : Nat) (v : Byte) : Memory :=
  if v = 0 then cellErase m a else cellInsert (cellErase m a) a v

/-- The canonical form of data memory: rising addresses below 64 (R40), no entry equal to 0, which is
what an unlisted cell reads. -/
abbrev Memory.wf (m : Memory) : Prop :=
  cellsRising m ∧ ∀ c ∈ m, c.1 < Config.dmemCells ∧ c.2 ≠ 0

/-! ### Instruction memory (20_memory R38, R39) -/

/-- `IMemRead(i)` (R39): the word at index `i`; where the host loaded none, a free value (log 6). -/
def ProgMemory.read (m : ProgMemory) (i : Nat) : Word :=
  (cellLookup m i).getD (Config.unloadedWord i)

/-- The host's load of one word; no instruction writes instruction memory (R38, R45). -/
def ProgMemory.load (m : ProgMemory) (i : Nat) (w : Word) : ProgMemory :=
  cellInsert (cellErase m i) i w

/-- The form of instruction memory: rising indices below 255 (R38). -/
abbrev ProgMemory.wf (m : ProgMemory) : Prop :=
  cellsRising m ∧ ∀ c ∈ m, c.1 < Config.imemMax

/-! ### Registers (10_state R18) -/

/-- A read port of the register file (R18): the value held before the step. -/
def State.readReg (s : State) (r : Reg) : Byte := s.regs[r]

/-- Write port W (R18). -/
def State.writeReg (s : State) (r : Reg) (v : Byte) : State := { s with regs := s.regs.set r v }

/-! ### Fetch and the terminal transitions -/

/-- Fetch (R39, R91): the word at `pc` when `pc < N`; no index of `N` or more is ever read. -/
def State.fetch (s : State) : Option Word :=
  if s.pc.toNat < s.progLen.toNat then some (s.imem.read s.pc.toNat) else none

/-- `pc = N`: the program has run off its end (R89). -/
def State.atEnd (s : State) : Bool := s.pc == s.progLen

/-- `STEPS = MAX_STEPS`: the budget is spent (R90). -/
def State.budgetSpent (s : State) : Bool := s.steps == s.maxSteps

/-- The END transition: "sets STATE <- END and changes nothing else" (R89). -/
def State.endRun (s : State) : State := { s with status := .ended }

/-- The BUDGET transition: "sets STATE <- BUDGET and changes nothing else" (R90). -/
def State.budgetRun (s : State) : State := { s with status := .budget }

/-- Fault entry `fault(c, w)` (R88, R126): the run ends with the fault record, everything else keeps its
value. -/
def takeFault (c : Cause) (w : Word) (s : State) : State :=
  { s with status := .fault, cause := some c, fpc := s.pc, fword := w }

/-! ### Effects and their commit -/

/-- What an instruction does, before it is committed (R93). -/
inductive Effect where
  /-- register write, data-memory write, division by zero; the bookkeeping follows -/
  | seq (wr : Option (Reg × Byte)) (mw : Option (BitVec 6 × Byte)) (dz : Bool)
  /-- control transfer, bookkeeping bypassed -/
  | jump (t : Byte)
  /-- HLT -/
  | halt
  /-- a fault of the instruction itself -/
  | fault (c : Cause)
  deriving DecidableEq, Repr

/-- Append one trace entry (R32). -/
def State.appendTrace (s : State) (e : TraceEntry) : State := { s with trace := s.trace ++ [e] }

/-- `STEPS <- STEPS + 1` (R101). -/
def State.countStep (s : State) : State := { s with steps := s.steps + 1 }

/-- Post-instruction bookkeeping (R95): recompute `zf`, append the `Exec` entry, advance `pc`. -/
def State.bookkeeping (i : Instr) (s : State) : State :=
  let s := s.recomputeZf
  let s := s.appendTrace (.exec i s.regs)
  { s with pc := s.pc + 1 }

/-- A register write, if the effect has one (R94). -/
def State.commitReg (s : State) : Option (Reg × Byte) → State
  | none => s
  | some (r, v) => s.writeReg r v

/-- A data-memory write, if the effect has one (R94). -/
def State.commitMem (s : State) : Option (BitVec 6 × Byte) → State
  | none => s
  | some (a, v) => { s with dmem := s.dmem.write a.toNat v }

/-- The `DivByZero` marker, if a division by zero occurred (R94, R100). -/
def State.commitDivZero (s : State) (dz : Bool) : State :=
  if dz then s.appendTrace .divByZero else s

/-- `commit(d, e)` (R94), and the fault path of R88 for an effect that is a fault: the instruction word it
records is the one word of `i` (log 7). -/
def commit (i : Instr) (e : Effect) (s : State) : State :=
  match e with
  | .seq wr mw dz => ((((s.commitReg wr).commitMem mw).commitDivZero dz).bookkeeping i).countStep
  | .jump t => { s with pc := t }.countStep
  | .halt => { s with status := .halted }.countStep
  | .fault c => takeFault c (encode i) s

/-- The effect of an instruction that writes one register and nothing else. -/
def writesReg (r : Reg) (v : Byte) : Effect := .seq (some (r, v)) none false

/-- The effect of an instruction that has the bookkeeping alone. -/
def bookkeepingOnly : Effect := .seq none none false

/-- The effect of a jump that is taken (R113, R114): the target check, then the transfer. -/
def jumpTo (t : Byte) (progLen : Byte) : Effect :=
  if targetInRange t progLen then .jump t else .fault .jumpRange

/-- Run an instruction: commit its effect. Every instruction has a next state (log 10). -/
def perform (i : Instr) (e : Effect) (s : State) : Host.Outcome State Fault Refusal :=
  .next (commit i e s)

end Sys2Proof.Machine
end

