-- ==== Sys2Proof/Machine/Arithmetic.lean ====
section
/-! DEFINITION. ADD, SUB, MUL, DIV (42_arithmetic R108..R112). The ALU works on exact integers and narrows
at the end, as the rules write it. -/

namespace Sys2Proof.Machine

/-- `(a + b) mod 256` (R109). -/
def aluAdd (a b : Byte) : Byte := BitVec.ofNat 8 ((a.toNat + b.toNat) % 256)

/-- `(a - b) mod 256`, the non-negative remainder (R110). -/
def aluSub (a b : Byte) : Byte := BitVec.ofInt 8 (((a.toNat : Int) - (b.toNat : Int)) % 256)

/-- `(a * b) mod 256` (R111). -/
def aluMul (a b : Byte) : Byte := BitVec.ofNat 8 ((a.toNat * b.toNat) % 256)

/-- `floor(a / b)` for `b > 0`, not masked; it always fits 8 bits (R112). -/
def aluDiv (a b : Byte) : Byte := BitVec.ofNat 8 (a.toNat / b.toNat)

/-- `effect(ADD(a, b))` (R109). -/
def effectAdd (a b : Reg) (s : State) : Effect := writesReg a (aluAdd (s.readReg a) (s.readReg b))

/-- `effect(SUB(a, b))` (R110). -/
def effectSub (a b : Reg) (s : State) : Effect := writesReg a (aluSub (s.readReg a) (s.readReg b))

/-- `effect(MUL(a, b))` (R111). -/
def effectMul (a b : Reg) (s : State) : Effect := writesReg a (aluMul (s.readReg a) (s.readReg b))

/-- `effect(DIV(a, b))` (R112): a zero divisor is logged and leaves the destination. -/
def effectDiv (a b : Reg) (s : State) : Effect :=
  if s.readReg b = 0 then .seq none none true
  else writesReg a (aluDiv (s.readReg a) (s.readReg b))

/-- ADD (R109). -/
def execAdd (a b : Reg) (s : State) : Host.Outcome State Fault Refusal :=
  perform (.add a b) (effectAdd a b s) s

/-- SUB (R110). -/
def execSub (a b : Reg) (s : State) : Host.Outcome State Fault Refusal :=
  perform (.sub a b) (effectSub a b s) s

/-- MUL (R111). -/
def execMul (a b : Reg) (s : State) : Host.Outcome State Fault Refusal :=
  perform (.mul a b) (effectMul a b s) s

/-- DIV (R112). -/
def execDiv (a b : Reg) (s : State) : Host.Outcome State Fault Refusal :=
  perform (.div a b) (effectDiv a b s) s

end Sys2Proof.Machine
end

