-- ==== Sys2Proof/Machine/Control.lean ====
section
/-! DEFINITION. JUMP, JUMPZ (43_control R113, R114). -/

namespace Sys2Proof.Machine

/-- `effect(JUMP(t))` (R113). -/
def effectJump (t : Byte) (s : State) : Effect := jumpTo t s.progLen

/-- `effect(JUMPZ(t))` (R114): the target is checked only when the jump is taken. -/
def effectJumpz (t : Byte) (s : State) : Effect :=
  if s.zf then jumpTo t s.progLen else bookkeepingOnly

/-- JUMP (R113). -/
def execJump (t : Byte) (s : State) : Host.Outcome State Fault Refusal :=
  perform (.jump t) (effectJump t s) s

/-- JUMPZ (R114). -/
def execJumpz (t : Byte) (s : State) : Host.Outcome State Fault Refusal :=
  perform (.jumpz t) (effectJumpz t s) s

end Sys2Proof.Machine
end

