-- ==== Sys2Proof/Machine/DataTransfer.lean ====
section
/-! DEFINITION. MOV, LOAD, STORE (41_data_transfer R105..R107). -/

namespace Sys2Proof.Machine

/-- `effect(MOV(d, lit8))` (R105). -/
def effectMov (d : Reg) (lit : Byte) : Effect := writesReg d lit

/-- `effect(LOAD(d, a))` (R106). -/
def effectLoad (d : Reg) (a : Byte) (s : State) : Effect :=
  match dataAddr a with
  | none => .fault .memRange
  | some c => writesReg d (s.dmem.read c.toNat)

/-- `effect(STORE(s, a))` (R107). -/
def effectStore (r : Reg) (a : Byte) (s : State) : Effect :=
  match dataAddr a with
  | none => .fault .memRange
  | some c => .seq none (some (c, s.readReg r)) false

/-- MOV (R105). -/
def execMov (d : Reg) (lit : Byte) (s : State) : Host.Outcome State Fault Refusal :=
  perform (.mov d lit) (effectMov d lit) s

/-- LOAD (R106). -/
def execLoad (d : Reg) (a : Byte) (s : State) : Host.Outcome State Fault Refusal :=
  perform (.load d a) (effectLoad d a s) s

/-- STORE (R107). -/
def execStore (r : Reg) (a : Byte) (s : State) : Host.Outcome State Fault Refusal :=
  perform (.store r a) (effectStore r a s) s

end Sys2Proof.Machine
end

