-- ==== Sys2Proof/Machine/Logical.lean ====
section
/-! DEFINITION. AND, OR, XOR, NOT (44_logical R115..R119). -/

namespace Sys2Proof.Machine

/-- `effect(AND(a, b))` (R116). -/
def effectAnd (a b : Reg) (s : State) : Effect := writesReg a (s.readReg a &&& s.readReg b)

/-- `effect(OR(a, b))` (R117). -/
def effectOr (a b : Reg) (s : State) : Effect := writesReg a (s.readReg a ||| s.readReg b)

/-- `effect(XOR(a, b))` (R118). -/
def effectXor (a b : Reg) (s : State) : Effect := writesReg a (s.readReg a ^^^ s.readReg b)

/-- `effect(NOT(a))`, the complement masked to 8 bits (R119). -/
def effectNot (a : Reg) (s : State) : Effect := writesReg a (~~~ s.readReg a)

/-- AND (R116). -/
def execAnd (a b : Reg) (s : State) : Host.Outcome State Fault Refusal :=
  perform (.and a b) (effectAnd a b s) s

/-- OR (R117). -/
def execOr (a b : Reg) (s : State) : Host.Outcome State Fault Refusal :=
  perform (.or a b) (effectOr a b s) s

/-- XOR (R118). -/
def execXor (a b : Reg) (s : State) : Host.Outcome State Fault Refusal :=
  perform (.xor a b) (effectXor a b s) s

/-- NOT (R119). -/
def execNot (a : Reg) (s : State) : Host.Outcome State Fault Refusal :=
  perform (.not a) (effectNot a s) s

end Sys2Proof.Machine
end

