-- ==== Sys2Proof/Machine/System.lean ====
section
/-! DEFINITION. HLT (45_system R120). -/

namespace Sys2Proof.Machine

/-- `effect(HLT)` (R120). -/
def effectHlt : Effect := .halt

/-- HLT (R120). -/
def execHlt (s : State) : Host.Outcome State Fault Refusal := perform .hlt effectHlt s

end Sys2Proof.Machine
end

