-- ==== Sys2Proof/Machine/Dispatch.lean ====
section
/-! DEFINITION. The dispatch of 40_execution_cycle R93: one arm per instruction, no default arm. -/

namespace Sys2Proof.Machine

def exec (i : Instr) (s : State) : Host.Outcome State Fault Refusal :=
  match i with
  | .mov rd lit => Sys2Proof.Machine.execMov rd lit s
  | .load rd addr => Sys2Proof.Machine.execLoad rd addr s
  | .store rs addr => Sys2Proof.Machine.execStore rs addr s
  | .add r1 r2 => Sys2Proof.Machine.execAdd r1 r2 s
  | .sub r1 r2 => Sys2Proof.Machine.execSub r1 r2 s
  | .mul r1 r2 => Sys2Proof.Machine.execMul r1 r2 s
  | .div r1 r2 => Sys2Proof.Machine.execDiv r1 r2 s
  | .jump t => Sys2Proof.Machine.execJump t s
  | .jumpz t => Sys2Proof.Machine.execJumpz t s
  | .and r1 r2 => Sys2Proof.Machine.execAnd r1 r2 s
  | .or r1 r2 => Sys2Proof.Machine.execOr r1 r2 s
  | .not r1 => Sys2Proof.Machine.execNot r1 s
  | .xor r1 r2 => Sys2Proof.Machine.execXor r1 r2 s
  | .hlt => Sys2Proof.Machine.execHlt s

end Sys2Proof.Machine
end

