-- ==== Sys2Proof/Machine/Step.lean ====
section
/-! DEFINITION. One step of the engine (40_execution_cycle R88). -/

namespace Sys2Proof.Machine

/-- Decode and execute the fetched word `w` (R92, R93). -/
def runWord (w : Word) (s : State) : Host.Outcome State Fault Refusal :=
  match decode w with
  | .illegal c => .next (takeFault c w s)
  | .instr i => exec i s

/-- `step(s)` (R88): END before BUDGET before the fetch (R90, R129). A run that has ended has no step
(R103, log 4); `pc > N` is reached by no run (R22, log 5). -/
def step (s : State) : Host.Outcome State Fault Refusal :=
  match s.status with
  | .running =>
    if s.atEnd then .next s.endRun
    else if s.budgetSpent then .next s.budgetRun
    else
      match s.fetch with
      | none => .fault .fetchBeyondProgram
      | some w => runWord w s
  | .halted => .fault (.notRunning .halted)
  | .ended => .fault (.notRunning .ended)
  | .fault => .fault (.notRunning .fault)
  | .budget => .fault (.notRunning .budget)

/-- `s` with the instruction whose bits are `w` where `step` fetches next, and all that its very next step
needs to run it (log 11): RUNNING, a `pc` that is an index of instruction memory, `N` above it, and a
budget that is not spent. -/
def State.withFetchWord (s : State) (nbits w : Nat) : State :=
  let p : Byte := if s.pc.toNat < Config.imemMax then s.pc else 0
  { s with
    status := .running
    pc := p
    imem := s.imem.load p.toNat (BitVec.ofNat 16 (w % 2 ^ nbits))
    progLen := if p.toNat < s.progLen.toNat then s.progLen else p + 1
    maxSteps := if s.steps = s.maxSteps then s.steps + 1 else s.maxSteps }

end Sys2Proof.Machine
end

