-- ==== Sys2Proof/Machine/Assembler.lean ====
section
/-! DEFINITION. The assembler, the toolchain syntax of the ISA (30_encoding R73..R87): lines, tokens, operands,
the two error policies, and the canonical textual form (R86). Text is a list of characters. -/

namespace Sys2Proof.Machine

abbrev Text := List Char

/-- Why a line fails (R82). -/
inductive AsmError where
  | unknownOpcode
  | arity
  | unknownRegister
  | nonInteger
  /-- the line would produce the 256th instruction (R82, R84) -/
  | programTooLong
  deriving DecidableEq, Repr

/-- What a line that holds a token assembles to. -/
inductive LineResult where
  | instr (i : Instr)
  | fails (e : AsmError)
  deriving DecidableEq, Repr

/-- What a source text assembles to (R73, R83). -/
inductive AsmResult where
  | program (is : List Instr)
  | error (line : Nat) (reason : AsmError)
  deriving DecidableEq, Repr

/-! ### Lines and tokens (R74, R75) -/

/-- Split at each line feed (R74). -/
def splitLines : Text → List Text
  | [] => [[]]
  | c :: cs =>
    if c = '\n' then [] :: splitLines cs
    else
      match splitLines cs with
      | [] => [[c]]
      | l :: ls => (c :: l) :: ls

/-- Whitespace: space, tab, carriage return, vertical tab, form feed (R75). -/
def isSpace (c : Char) : Bool :=
  c == ' ' || c == '\t' || c == '\r' || c.toNat == 0x0B || c.toNat == 0x0C

/-- A finished token, if it holds a character. -/
def flushToken (cur : Text) : List Text := if cur.isEmpty then [] else [cur]

/-- The tokens of a text whose current token so far is `cur`. -/
def tokensFrom : Text → Text → List Text
  | cur, [] => flushToken cur
  | cur, c :: cs =>
    if isSpace c then flushToken cur ++ tokensFrom [] cs else tokensFrom (cur ++ [c]) cs

/-- Maximal runs of characters that are not whitespace (R75). -/
def tokens (line : Text) : List Text := tokensFrom [] line

/-! ### Mnemonics, registers, integers (R76..R79) -/

/-- The upper-case mnemonic (R76, R86). -/
def opcodeText : Opcode → Text
  | .mov => ['M', 'O', 'V']
  | .load => ['L', 'O', 'A', 'D']
  | .store => ['S', 'T', 'O', 'R', 'E']
  | .add => ['A', 'D', 'D']
  | .sub => ['S', 'U', 'B']
  | .mul => ['M', 'U', 'L']
  | .div => ['D', 'I', 'V']
  | .jump => ['J', 'U', 'M', 'P']
  | .jumpz => ['J', 'U', 'M', 'P', 'Z']
  | .and => ['A', 'N', 'D']
  | .or => ['O', 'R']
  | .not => ['N', 'O', 'T']
  | .xor => ['X', 'O', 'R']
  | .hlt => ['H', 'L', 'T']

/-- The 14 opcodes. -/
def allOpcodes : List Opcode :=
  [.mov, .load, .store, .add, .sub, .mul, .div, .jump, .jumpz, .and, .or, .not, .xor, .hlt]

/-- ASCII case folding of one letter (R76). -/
def upperChar (c : Char) : Char :=
  if 97 ≤ c.toNat ∧ c.toNat ≤ 122 then Char.ofNat (c.toNat - 32) else c

/-- The opcode a first token selects, case-insensitively (R76). -/
def parseOpcode (t : Text) : Option Opcode :=
  allOpcodes.find? (fun o => opcodeText o == t.map upperChar)

/-- A register token: exactly `R0`..`R5` (R78). -/
def parseReg : Text → Option Reg
  | [c, d] =>
    if c = 'R' ∧ 48 ≤ d.toNat ∧ d.toNat ≤ 53 then some (Fin.ofNat 6 (d.toNat - 48)) else none
  | _ => none

/-- A decimal digit. -/
def digitValue (c : Char) : Option Nat :=
  if 48 ≤ c.toNat ∧ c.toNat ≤ 57 then some (c.toNat - 48) else none

/-- Decimal digits after a value already read. -/
def digitsFrom : Nat → Text → Option Nat
  | acc, [] => some acc
  | acc, c :: cs => (digitValue c).bind (fun d => digitsFrom (acc * 10 + d) cs)

/-- `[0-9]+` (R79). -/
def parseNat (t : Text) : Option Nat := if t.isEmpty then none else digitsFrom 0 t

/-- An integer token, `[+-]?[0-9]+`, unbounded (R79). -/
def parseInt : Text → Option Int
  | [] => none
  | c :: cs =>
    if c = '+' then (parseNat cs).map (fun n => (n : Int))
    else if c = '-' then (parseNat cs).map (fun n => -(n : Int))
    else (parseNat (c :: cs)).map (fun n => (n : Int))

/-! ### Operand values (R80, R81) -/

/-- A MOV literal: `v mod 256` (R80). -/
def encodeLiteral (v : Int) : Byte := BitVec.ofInt 8 (v % 256)

/-- An address or a jump target: itself in 0..254, else 0xFF (R81). -/
def encodeAddress (v : Int) : Byte := if 0 ≤ v ∧ v ≤ 254 then BitVec.ofInt 8 v else 0xFF

/-! ### One line (R77, R82): arity, then the operands left to right -/

/-- A register and an integer. -/
def lineRegInt (mk : Reg → Byte → Instr) (enc : Int → Byte) : List Text → LineResult
  | [r, v] =>
    match parseReg r with
    | none => .fails .unknownRegister
    | some d =>
      match parseInt v with
      | none => .fails .nonInteger
      | some n => .instr (mk d (enc n))
  | _ => .fails .arity

/-- Two registers. -/
def lineRegReg (mk : Reg → Reg → Instr) : List Text → LineResult
  | [r, q] =>
    match parseReg r with
    | none => .fails .unknownRegister
    | some a =>
      match parseReg q with
      | none => .fails .unknownRegister
      | some b => .instr (mk a b)
  | _ => .fails .arity

/-- One register. -/
def lineReg (mk : Reg → Instr) : List Text → LineResult
  | [r] =>
    match parseReg r with
    | none => .fails .unknownRegister
    | some a => .instr (mk a)
  | _ => .fails .arity

/-- One integer target. -/
def lineTarget (mk : Byte → Instr) : List Text → LineResult
  | [v] =>
    match parseInt v with
    | none => .fails .nonInteger
    | some n => .instr (mk (encodeAddress n))
  | _ => .fails .arity

/-- No operand. -/
def lineNone (i : Instr) : List Text → LineResult
  | [] => .instr i
  | _ => .fails .arity

/-- The operands of a line, by its opcode (R77). -/
def assembleOperands (op : Opcode) (args : List Text) : LineResult :=
  match op with
  | .mov => lineRegInt .mov encodeLiteral args
  | .load => lineRegInt .load encodeAddress args
  | .store => lineRegInt .store encodeAddress args
  | .add => lineRegReg .add args
  | .sub => lineRegReg .sub args
  | .mul => lineRegReg .mul args
  | .div => lineRegReg .div args
  | .jump => lineTarget .jump args
  | .jumpz => lineTarget .jumpz args
  | .and => lineRegReg .and args
  | .or => lineRegReg .or args
  | .not => lineReg .not args
  | .xor => lineRegReg .xor args
  | .hlt => lineNone .hlt args

/-- A line with first token `t`: the opcode is checked first (R82). -/
def assembleLine (t : Text) (args : List Text) : LineResult :=
  match parseOpcode t with
  | none => .fails .unknownOpcode
  | some op => assembleOperands op args

/-! ### A source text (R73, R74, R83, R84) -/

/-- The lines from line number `n` on, after the instructions `done`. A blank line is skipped; a line that
fails ends assembly or is dropped, by policy; a 256th instruction ends it under both policies. -/
def assembleFrom (policy : AsmPolicy) : Nat → List Instr → List Text → AsmResult
  | _, done, [] => .program done
  | n, done, l :: ls =>
    match tokens l with
    | [] => assembleFrom policy (n + 1) done ls
    | t :: args =>
      match assembleLine t args with
      | .instr i =>
        if done.length < Config.imemMax then assembleFrom policy (n + 1) (done ++ [i]) ls
        else .error n .programTooLong
      | .fails e =>
        match policy with
        | .strict => .error n e
        | .legacyDrop => assembleFrom policy (n + 1) done ls

/-- `assemble(source)` (R73), lines numbered from 1 (R74). -/
def assemble (policy : AsmPolicy) (src : Text) : AsmResult :=
  assembleFrom policy 1 [] (splitLines src)

/-- The program image: the words of the instructions, in order (R73, R87). -/
def AsmResult.image : AsmResult → Option (List Word)
  | .program is => some (is.map encode)
  | .error _ _ => none

/-! ### The canonical textual form (R86) -/

/-- A decimal digit's character. -/
def digitChar (d : Nat) : Char := Char.ofNat (48 + d)

/-- An 8-bit value in decimal, without leading zeros. -/
def decimal (v : Byte) : Text :=
  let n := v.toNat
  if n < 10 then [digitChar n]
  else if n < 100 then [digitChar (n / 10), digitChar (n % 10)]
  else [digitChar (n / 100), digitChar (n / 10 % 10), digitChar (n % 10)]

/-- `Rk`. -/
def regText (r : Reg) : Text := ['R', digitChar r.val]

/-- The operands of an instruction as texts, in source order. -/
def operandTexts : Instr → List Text
  | .mov d v => [regText d, decimal v]
  | .load d a => [regText d, decimal a]
  | .store r a => [regText r, decimal a]
  | .add a b => [regText a, regText b]
  | .sub a b => [regText a, regText b]
  | .mul a b => [regText a, regText b]
  | .div a b => [regText a, regText b]
  | .jump t => [decimal t]
  | .jumpz t => [decimal t]
  | .and a b => [regText a, regText b]
  | .or a b => [regText a, regText b]
  | .not a => [regText a]
  | .xor a b => [regText a, regText b]
  | .hlt => []

/-- Texts after a first one, each behind a single space. -/
def spaced (ts : List Text) : Text := ts.flatMap (fun t => ' ' :: t)

/-- The canonical textual form (R86): the upper-case mnemonic and the operands, separated by single
spaces. -/
def Instr.render (i : Instr) : Text := opcodeText i.opcode ++ spaced (operandTexts i)

/-- A program as source text, one instruction a line. -/
def renderProgram (is : List Instr) : Text := is.flatMap (fun i => Instr.render i ++ ['\n'])

end Sys2Proof.Machine
end

