-- ==== Sys2Proof/Machine/Ports.lean ====
section
/-! DEFINITION. The port view of an instruction (10_state R17, R18; 20_memory R44): which registers it reads
through ports A and B, what write port W and the data-memory port carry. A view for claims: `exec` does not
use it (log 12). -/

namespace Sys2Proof.Machine

/-- `effect(d, s)` (R93): the effect of every instruction. -/
def effectOf (i : Instr) (s : State) : Effect :=
  match i with
  | .mov d lit => effectMov d lit
  | .load d a => effectLoad d a s
  | .store r a => effectStore r a s
  | .add a b => effectAdd a b s
  | .sub a b => effectSub a b s
  | .mul a b => effectMul a b s
  | .div a b => effectDiv a b s
  | .jump t => effectJump t s
  | .jumpz t => effectJumpz t s
  | .and a b => effectAnd a b s
  | .or a b => effectOr a b s
  | .not a => effectNot a s
  | .xor a b => effectXor a b s
  | .hlt => effectHlt

/-- Read port A: the register it is addressed with, where the instruction uses it (R18). -/
def portA : Instr → Option Reg
  | .store r _ => some r
  | .add a _ | .sub a _ | .mul a _ | .div a _ | .and a _ | .or a _ | .xor a _ => some a
  | .not a => some a
  | .mov _ _ | .load _ _ | .jump _ | .jumpz _ | .hlt => none

/-- Read port B (R18). -/
def portB : Instr → Option Reg
  | .add _ b | .sub _ b | .mul _ b | .div _ b | .and _ b | .or _ b | .xor _ b => some b
  | .mov _ _ | .load _ _ | .store _ _ | .not _ | .jump _ | .jumpz _ | .hlt => none

/-- Write port W: address and value while `we` is on (R18). -/
def portW (i : Instr) (s : State) : Option (Reg × Byte) :=
  match effectOf i s with
  | .seq wr _ _ => wr
  | .jump _ => none
  | .halt => none
  | .fault _ => none

/-- The register an instruction can write: the one its RA field names (R17, R18). -/
def writable : Instr → Option Reg
  | .mov d _ | .load d _ => some d
  | .add a _ | .sub a _ | .mul a _ | .div a _ | .and a _ | .or a _ | .xor a _ => some a
  | .not a => some a
  | .store _ _ | .jump _ | .jumpz _ | .hlt => none

/-- The data-memory port (R44), its five signals. The spec gives `addr` and `rdata` a meaning only in an access and
`wdata` only in a write: `addr` and `rdata` mean nothing while both enables are off, `wdata` while `we` is off
(DESIGN CHOICE, log 12). -/
structure DmemPort where
  /-- `dm_addr` -/
  addr : BitVec 6
  /-- `dm_re` -/
  re : Bool
  /-- `dm_rdata` -/
  rdata : Byte
  /-- `dm_we` -/
  we : Bool
  /-- `dm_wdata` -/
  wdata : Byte
  deriving DecidableEq, Repr

/-- The port with address, enables and write data as given: `dm_rdata` is the addressed cell's current value,
`MemRead(dm_addr, 1)` (R44), the value before the instruction (00_scope R10). -/
def State.dmemPortAt (s : State) (addr : BitVec 6) (re we : Bool) (wdata : Byte) : DmemPort :=
  ⟨addr, re, s.dmem.read addr.toNat, we, wdata⟩

/-- The data-memory port during an instruction (R44): `dm_addr` from `IMM8[5:0]` after the check of R43,
`dm_wdata` from read port A. DESIGN CHOICE (log 12) for what carries no meaning: `dm_wdata` is 0 during a LOAD and
during an instruction without data access, whose `dm_addr` is 0 too. -/
def dmemPort (i : Instr) (s : State) : DmemPort :=
  match i with
  | .load _ a => s.dmemPortAt (a.extractLsb' 0 6) (dataAddr a).isSome false 0
  | .store r a => s.dmemPortAt (a.extractLsb' 0 6) false (dataAddr a).isSome (s.readReg r)
  | .mov _ _ | .add _ _ | .sub _ _ | .mul _ _ | .div _ _ => s.dmemPortAt 0 false false 0
  | .jump _ | .jumpz _ | .and _ _ | .or _ _ | .not _ | .xor _ _ | .hlt => s.dmemPortAt 0 false false 0

end Sys2Proof.Machine
end

