-- ==== Sys2Proof/Machine/Run.lean ====
section
/-! DEFINITION. The host's side of a run (70_reset_and_hazards R142..R147; 40_execution_cycle R104; 10_state
R37): launch, the run to its end, and the results the host reads. -/

namespace Sys2Proof.Machine

/-- The program at indices `0..N-1` (R38, R144). -/
def loadProgram (prog : List Word) : ProgMemory := prog.zipIdx.map (fun c => (c.2, c.1))

/-- Host launch (R144): load the program, set `N` and `MAX_STEPS`, reset. `none` when the program does not
fit, `N > 255`. Nothing of an earlier run survives: the state is made from `State.reset` (R142). -/
def State.launch (prog : List Word) (maxSteps : Nat) : Option State :=
  if programWellFormed prog then
    some { State.reset with
      imem := loadProgram prog
      progLen := BitVec.ofNat 8 prog.length
      maxSteps := maxSteps }
  else none

/-- Up to `k` steps, stopping where there is no step (R103). -/
def runFuel : Nat → State → State
  | 0, s => s
  | k + 1, s =>
    match step s with
    | .next t => runFuel k t
    | .fault _ => s
    | .refused _ => s

/-- `run(imem, N, MAX_STEPS)` (R104): from reset to the end of the run, which takes at most
`MAX_STEPS + 1` steps. -/
def runProgram (prog : List Word) (maxSteps : Nat) : Option State :=
  (State.launch prog maxSteps).map (runFuel (maxSteps + 1))

/-- What the host reads after a run (R37, R145), registers as coded (R28, R29). -/
structure HostResult where
  trace : List TraceEntry
  regs : RegFile
  mem : List Byte
  status : BitVec 3
  cause : BitVec 3
  fpc : Byte
  fword : Word
  pc : Byte
  zf : Bool
  steps : Nat
  deriving DecidableEq, Repr

/-- The result of a run (R145): the 64 cells in address order, and every host-visible register. -/
def State.result (s : State) : HostResult where
  trace := s.trace
  regs := s.regs
  mem := (List.range Config.dmemCells).map s.dmem.read
  status := statusCode s.status
  cause := causeCode s.cause
  fpc := s.fpc
  fword := s.fword
  pc := s.pc
  zf := s.zf
  steps := s.steps

end Sys2Proof.Machine
end

