-- ==== Sys2Proof/Safety.lean ====
section
/-! DEFINITION. The terms claims are stated in: what a step keeps, what the bookkeeping and a fault leave, and
the invariant of a run. Each is said field by field, not through the operations that compute it. -/

namespace Sys2Proof.Machine

/-- Every register reads as before. -/
def RegsKept (s t : State) : Prop := ∀ q : Reg, t.readReg q = s.readReg q

/-- Every register but `r` reads as before. -/
def RegsKeptBut (r : Reg) (s t : State) : Prop := ∀ q : Reg, q ≠ r → t.readReg q = s.readReg q

/-- Every address of data memory reads as before. -/
def MemKept (s t : State) : Prop := ∀ a : Nat, t.dmem.read a = s.dmem.read a

/-- Every address of data memory but `c` reads as before. -/
def MemKeptBut (c : Nat) (s t : State) : Prop :=
  ∀ a : Nat, a ≠ c → t.dmem.read a = s.dmem.read a

/-- What no instruction changes: the program, its length, the budget (R31, R38, R144). -/
structure HostInputsKept (s t : State) : Prop where
  imem : t.imem = s.imem
  progLen : t.progLen = s.progLen
  maxSteps : t.maxSteps = s.maxSteps

/-- The run status and the fault record are unchanged (R28, R29). -/
structure StatusKept (s t : State) : Prop where
  status : t.status = s.status
  cause : t.cause = s.cause
  fpc : t.fpc = s.fpc
  fword : t.fword = s.fword

/-- The bookkeeping of R95 after instruction `i`, with `markers` logged before its `Exec` entry: `zf` says
whether some register now holds 0, the entry has the registers of now, `pc` and `STEPS` advance by one. -/
structure Bookkept (i : Instr) (markers : List TraceEntry) (s t : State) : Prop where
  zf : t.zf = true ↔ ∃ r : Reg, t.readReg r = 0
  trace : t.trace = s.trace ++ markers ++ [.exec i t.regs]
  pc : t.pc = s.pc + 1
  steps : t.steps = s.steps + 1
  status : StatusKept s t
  inputs : HostInputsKept s t

/-- A jump that bypasses the bookkeeping (R102): `pc` is the target, `STEPS` counts, nothing else. -/
structure Jumped (target : Byte) (s t : State) : Prop where
  pc : t.pc = target
  steps : t.steps = s.steps + 1
  zf : t.zf = s.zf
  trace : t.trace = s.trace
  regs : RegsKept s t
  mem : MemKept s t
  status : StatusKept s t
  inputs : HostInputsKept s t

/-- Registers, memory, `pc`, `zf`, `STEPS`, trace and the host's inputs are unchanged. -/
structure MachineKept (s t : State) : Prop where
  regs : RegsKept s t
  mem : MemKept s t
  pc : t.pc = s.pc
  zf : t.zf = s.zf
  steps : t.steps = s.steps
  trace : t.trace = s.trace
  inputs : HostInputsKept s t

/-- Fault entry (R126): the fault record, and everything else as before. -/
structure FaultTaken (c : Cause) (w : Word) (s t : State) : Prop where
  status : t.status = .fault
  cause : t.cause = some c
  fpc : t.fpc = s.pc
  fword : t.fword = w
  kept : MachineKept s t

/-- A run that ends without a fault (R89, R90): the status, and everything else as before. -/
structure EndedWith (st : RunStatus) (s t : State) : Prop where
  status : t.status = st
  cause : t.cause = s.cause
  fpc : t.fpc = s.fpc
  fword : t.fword = s.fword
  kept : MachineKept s t

/-- No bookkeeping instruction has run yet: all registers and cells are 0, `zf = 0` although every register
holds 0 (R26, R152), the trace is empty. -/
structure Untouched (s : State) : Prop where
  regs : ∀ r : Reg, s.readReg r = 0
  mem : ∀ a : Nat, s.dmem.read a = 0
  zf : s.zf = false
  trace : s.trace = []

/-- At least one bookkeeping instruction has run: `zf` describes the registers (R152), and the last trace
entry is the `Exec` entry that shows the registers as they are now (R97). -/
structure Settled (s : State) : Prop where
  zf : s.zf = true ↔ ∃ r : Reg, s.readReg r = 0
  trace : ∃ i : Instr, s.trace.getLast? = some (.exec i s.regs)

/-- An entry is an `Exec` entry. -/
def TraceEntry.isExec : TraceEntry → Bool
  | .exec _ _ => true
  | .divByZero => false

/-- The fault record agrees with the run status: without a fault it is at its reset values (R29, R33), with
one it names the instruction at `pc` (R126). -/
structure RecordAgrees (s : State) : Prop where
  clear : s.status ≠ .fault → s.cause = none ∧ s.fpc = 0 ∧ s.fword = 0
  faulted : s.status = .fault →
    s.cause.isSome = true ∧ s.fpc = s.pc ∧ s.pc.toNat < s.progLen.toNat ∧
      s.fword = s.imem.read s.pc.toNat

/-- What the run status says about `pc` and `STEPS`: END is at `N` (R89), BUDGET has spent the budget before
the end of the program (R90), HALTED is at an instruction (R120). -/
structure StatusAgrees (s : State) : Prop where
  ended : s.status = .ended → s.pc = s.progLen
  budget : s.status = .budget → s.steps = s.maxSteps ∧ s.pc ≠ s.progLen
  halted : s.status = .halted → s.pc.toNat < s.progLen.toNat

/-- The invariant of a run. -/
structure RunInv (s : State) : Prop where
  /-- `0 <= pc <= N` (R22) -/
  pc : s.pc.toNat ≤ s.progLen.toNat
  /-- the budget is never passed (R90, R101) -/
  steps : s.steps ≤ s.maxSteps
  /-- data memory is canonical: addresses 0..63 (R40) -/
  dmem : s.dmem.wf
  /-- instruction memory is canonical: indices 0..254 (R38) -/
  imem : s.imem.wf
  /-- the zero flag and the trace (R97, R152) -/
  zfTrace : Untouched s ∨ Settled s
  /-- at most one `Exec` entry for each completed instruction (R99, R101) -/
  traceCount : (s.trace.filter TraceEntry.isExec).length ≤ s.steps
  /-- the fault record (R29, R126) -/
  record : RecordAgrees s
  /-- the run status (R28) -/
  status : StatusAgrees s

/-- A safe run state: no fault has ended the run (R28). -/
def Safe (s : State) : Prop := s.status ≠ .fault

/-- The step is about to fetch: the run is not over, `pc < N`, the budget is not spent (R88, R129). -/
structure AboutToFetch (s : State) : Prop where
  running : s.status = .running
  pc : s.pc.toNat < s.progLen.toNat
  budget : s.steps ≠ s.maxSteps

/-- `i` runs as a bookkeeping instruction that writes `v` to register `r` and nothing else. -/
def RunsWriting (i : Instr) (r : Reg) (v : Byte) (s : State) : Prop :=
  ∃ t, exec i s = .next t ∧ t.readReg r = v ∧ RegsKeptBut r s t ∧ MemKept s t ∧ Bookkept i [] s t

/-- `i` ends the run with fault `c`, its own word `w` recorded (R123, R126). -/
def RunsIntoFault (i : Instr) (c : Cause) (w : Word) (s : State) : Prop :=
  ∃ t, exec i s = .next t ∧ FaultTaken c w s t

/-- The word of the bit pattern `oooo aaa0 iiii iiii` of R63, written as a number. -/
def wordOf (op ra imm : Nat) : Word := BitVec.ofNat 16 (op * 4096 + ra * 512 + imm)

/-- The instruction of a source line, where the line holds one that assembles (R74..R82). -/
def lineInstr (l : Text) : Option Instr :=
  match tokens l with
  | [] => none
  | t :: args =>
    match assembleLine t args with
    | .instr i => some i
    | .fails _ => none

/-- The reason a source line fails to assemble, where it does (R82). -/
def lineError (l : Text) : Option AsmError :=
  match tokens l with
  | [] => none
  | t :: args =>
    match assembleLine t args with
    | .instr _ => none
    | .fails e => some e

end Sys2Proof.Machine
end

