-- ==== Sys2Proof/Certificates/Slice0/Obligations.lean ====
section
/-! DEFINITION. The statements for the provers (OBLIGATIONS.json). Each docstring names the rule of spec/ it
formalises, or the log entry of the model's own choice it rests on. -/

open Sys2Proof Sys2Proof.Machine

/-! ### Encoding (30_encoding) -/

/-- Decoding the word of an instruction gives the instruction back, for every instruction and every operand
value (R70, R87). -/
def Obligations.DecodeOfEncodeIsTheInstruction : Prop :=
  ∀ i : Instr, decode (encode i) = .instr i

/-- Each legal word has one meaning and each instruction one word: encoding what a word decodes to gives
the word back (R67, R70). -/
def Obligations.EncodeOfDecodeIsTheWord : Prop :=
  ∀ (w : Word) (i : Instr), decode w = .instr i → encode i = w

/-- The table has 14 rows; a word that a row accepts decodes to an instruction of that row's mnemonic (R63). That a
word that no row accepts is illegal is the spec's own inference (R68, marked derived from R62 and R70). -/
def Obligations.LegalWordsAreTheTableRows : Prop :=
  opcodeRows.length = 14 ∧
  (∀ (w : Word) (r : TableRow), r ∈ opcodeRows → r.accepts w = true →
    ∃ i, decode w = .instr i ∧ i.opcode = r.opcode) ∧
  (∀ w : Word, (∀ r ∈ opcodeRows, r.accepts w = false) → ∃ c, decode w = .illegal c)

/-- No word is accepted by two rows of the table of R63. -/
def Obligations.TableRowsDoNotOverlap : Prop :=
  opcodeRows.Pairwise (fun r q => ∀ w : Word, ¬ (r.accepts w = true ∧ q.accepts w = true))

/-- R65, R66: codes 0 and 14 give ILLEGAL_OPCODE whatever the other fields hold. Every other illegal word gives
ILLEGAL_OPERAND: the spec's own inference from the decode function (R72, marked derived from R70). -/
def Obligations.IllegalOpcodeBeforeOperand : Prop :=
  ∀ w : Word,
    (fieldOP w = 0 ∨ fieldOP w = 14 → decode w = .illegal .illegalOpcode) ∧
    (fieldOP w ≠ 0 → fieldOP w ≠ 14 → (∀ i, decode w ≠ .instr i) →
      decode w = .illegal .illegalOperand)

/-- R67: a word with a legal opcode and a non-zero must-be-zero field is illegal with ILLEGAL_OPERAND: `Z`
in every format, `RA` in J and N, `IMM8` in R1 and N, `HI5` in RR. -/
def Obligations.NonzeroReservedFieldIsIllegal : Prop :=
  ∀ (w : Word) (op : Opcode), fieldOP w = op.code →
    (fieldZ w ≠ 0 ∨
      ((op.format = .j ∨ op.format = .n) ∧ fieldRA w ≠ 0) ∨
      ((op.format = .r1 ∨ op.format = .n) ∧ fieldIMM8 w ≠ 0) ∨
      (op.format = .rr ∧ fieldHI5 w ≠ 0)) →
    decode w = .illegal .illegalOperand

/-- R60: field values 0..5 name R0..R5; a word whose format has a register field that holds 6 or 7 is
illegal with ILLEGAL_OPERAND. -/
def Obligations.RegisterFieldsNameSixRegisters : Prop :=
  (∀ (k : BitVec 3) (r : Reg), regOf k = some r ↔ k.toNat = r.val) ∧
  (∀ (w : Word) (op : Opcode), fieldOP w = op.code →
    ((op.format ≠ .j ∧ op.format ≠ .n ∧ 6 ≤ (fieldRA w).toNat) ∨
      (op.format = .rr ∧ 6 ≤ (fieldRB w).toNat)) →
    decode w = .illegal .illegalOperand)

/-- Words written out from the spec's encodings decode to what they stand for (R63, R87 examples,
95_test_vectors V-DEC): one of each format, and illegal ones. -/
def Obligations.SampleWordsDecode : Prop :=
  decode 0b0001001000000011 = .instr (.mov 1 3) ∧
  decode 0b0010001000111111 = .instr (.load 1 63) ∧
  decode 0b0011101001000000 = .instr (.store 5 64) ∧
  decode 0b0100101000000101 = .instr (.add 5 5) ∧
  decode 0b1000000011111111 = .instr (.jump 255) ∧
  decode 0b1100101000000000 = .instr (.not 5) ∧
  decode 0b1111000000000000 = .instr .hlt ∧
  decode 0b0000000000000000 = .illegal .illegalOpcode ∧
  decode 0b1110111111111111 = .illegal .illegalOpcode ∧
  decode 0b0100000000001000 = .illegal .illegalOperand

/-- A program stored as bytes, most significant byte of each word first, words in index order, is read
back as the same words (R47). -/
def Obligations.ByteImageKeepsTheProgram : Prop :=
  (∀ w : Word, (bytesOfWord w).map (·.toNat) = [w.toNat / 256, w.toNat % 256]) ∧
  (∀ ws : List Word, wordsOfImage (imageOfWords ws) = some ws) ∧
  (∀ (w : Word) (ws : List Word), decodeBytes (imageOfWords (w :: ws)) = some (decode w, imageOfWords ws))

/-- A raw record passes the check of R69 exactly when it is some instruction's record, and is then that
instruction. -/
def Obligations.WellFormedRecordsAreInstructions : Prop :=
  (∀ r : RawRecord, r.wellFormed = true ↔ ∃ i : Instr, i.toRaw = r) ∧
  (∀ i : Instr, i.toRaw.toInstr = some i)

/-! ### Reset and launch (10_state R33, 70_reset_and_hazards) -/

/-- R33, R142: after a launch every piece of state holds its reset value, and the host's inputs are the
program, its length and the budget. -/
def Obligations.LaunchGivesTheResetState : Prop :=
  ∀ (prog : List Word) (m : Nat), prog.length ≤ 255 → ∃ s, State.launch prog m = some s ∧
    (∀ r : Reg, s.readReg r = 0) ∧ (∀ a : Nat, s.dmem.read a = 0) ∧ s.pc = 0 ∧ s.zf = false ∧
    s.status = .running ∧ s.cause = none ∧ s.fpc = 0 ∧ s.fword = 0 ∧ s.steps = 0 ∧ s.trace = [] ∧
    s.progLen.toNat = prog.length ∧ s.maxSteps = m ∧
    ∀ (j : Nat) (h : j < prog.length), s.imem.read j = prog[j]

/-- A program of more than 255 words is not launched: R144 asks the host for `0 <= N <= 255`. That launch
answers nothing there is the model's choice (log 13). -/
def Obligations.LongProgramIsNotLaunched : Prop :=
  ∀ (prog : List Word) (m : Nat), 255 < prog.length → State.launch prog m = none

/-- The invariant holds at State.reset. Rests on log 2 and 3 for the host's inputs there. -/
def Obligations.ResetMeetsTheInvariant : Prop := RunInv State.reset

/-- The invariant holds at every launch. -/
def Obligations.LaunchMeetsTheInvariant : Prop :=
  ∀ (prog : List Word) (m : Nat) (s : State), State.launch prog m = some s → RunInv s

/-- What the host reads: the trace, the registers, the 64 cells in address order, STATE and CAUSE by their codes,
FPC, FWORD, pc, zf and STEPS, each as the state holds it (R28, R29, R37, R122, R145). -/
def Obligations.HostResultShowsTheState : Prop :=
  (∀ s : State, s.result.mem.length = 64 ∧
    (∀ a : Nat, a < 64 → s.result.mem[a]? = some (s.dmem.read a)) ∧
    s.result.trace = s.trace ∧ s.result.regs = s.regs ∧
    s.result.status = statusCode s.status ∧ s.result.cause = causeCode s.cause ∧
    s.result.fpc = s.fpc ∧ s.result.fword = s.fword ∧ s.result.pc = s.pc ∧ s.result.zf = s.zf ∧
    s.result.steps = s.steps) ∧
  [RunStatus.running, .halted, .ended, .fault, .budget].map (fun st => (statusCode st).toNat) =
    [0, 1, 2, 3, 4] ∧
  [none, some Cause.illegalOpcode, some .illegalOperand, some .memRange, some .jumpRange].map
    (fun c => (causeCode c).toNat) = [0, 1, 2, 3, 4]

/-! ### The step (40_execution_cycle, 60_exceptions) -/

/-- A step that is about to fetch and whose word decodes to `i` is exactly `exec i`: the step adds nothing
around it (R88, R91, R92). -/
def Obligations.StepRunsTheDecodedInstruction : Prop :=
  ∀ (s : State) (i : Instr), AboutToFetch s → decode (s.imem.read s.pc.toNat) = .instr i →
    step s = exec i s

/-- R124: every illegal word the engine fetches faults, whatever the state, with the cause the word alone
gives. -/
def Obligations.IllegalWordFaults : Prop :=
  ∀ (s : State) (c : Cause), AboutToFetch s → decode (s.imem.read s.pc.toNat) = .illegal c →
    ∃ t, step s = .next t ∧ FaultTaken c (s.imem.read s.pc.toNat) s t

/-- R123, R126: whatever the fault, the step that ends in FAULT has written the fault record, with `FPC` its
`pc` and `FWORD` the word fetched there, and has changed nothing else. -/
def Obligations.EveryFaultIsPrecise : Prop :=
  ∀ s t : State, step s = .next t → t.status = .fault →
    ∃ c, FaultTaken c (s.imem.read s.pc.toNat) s t

/-- R89: at `pc = N` (0 for an empty program) a step ends the run with END and changes nothing else, whatever the
budget; and `pc` gets to `N` in a step only from `N - 1`, by the advance of the bookkeeping. -/
def Obligations.EndAtProgramLength : Prop :=
  (∀ s : State, s.status = .running → s.pc = s.progLen →
    ∃ t, step s = .next t ∧ EndedWith .ended s t) ∧
  (∀ s t : State, step s = .next t → s.pc ≠ s.progLen → t.pc = t.progLen →
    s.pc.toNat + 1 = s.progLen.toNat ∧ ∃ i, s.imem.read s.pc.toNat = encode i ∧
      t.trace.getLast? = some (.exec i t.regs))

/-- R90: with `pc < N` and `STEPS = MAX_STEPS` a step ends the run with BUDGET and changes nothing else,
whatever word stands at `pc`. -/
def Obligations.BudgetEndsTheRun : Prop :=
  ∀ s : State, s.status = .running → s.pc.toNat < s.progLen.toNat → s.steps = s.maxSteps →
    ∃ t, step s = .next t ∧ EndedWith .budget s t

/-- R103: a run that has ended has no step, and nothing changes. -/
def Obligations.NoStepAfterTheRun : Prop :=
  ∀ s : State, s.status ≠ .running → (∀ t, step s ≠ .next t) ∧ ∀ k : Nat, runFuel k s = s

/-- A running state that meets the invariant has a step (R88, R22). -/
def Obligations.RunningStateHasAStep : Prop :=
  ∀ s : State, RunInv s → s.status = .running → ∃ t, step s = .next t

/-- Every step keeps the invariant: `pc` in 0..N, the budget, both memories' forms, the zero flag and the
trace agreeing with the registers, the fault record and the run status (R22, R29, R40, R90, R97, R152). -/
def Obligations.StepKeepsTheInvariant : Prop :=
  ∀ s t : State, RunInv s → step s = .next t → RunInv t

/-- Every step that does not end the run raises STEPS by 1, and a run ends within `MAX_STEPS + 1` steps: from a
launch, and from any state of the invariant within the budget that is left. The spec's own inference (R104,
marked derived from R88, R90, R101). -/
def Obligations.RunEndsWithinTheBudget : Prop :=
  (∀ s t : State, step s = .next t → t.status = .running → t.steps = s.steps + 1) ∧
  (∀ s : State, RunInv s → (runFuel (s.maxSteps - s.steps + 1) s).status ≠ .running) ∧
  (∀ (prog : List Word) (m : Nat), prog.length ≤ 255 →
    ∃ t, runProgram prog m = some t ∧ t.status ≠ .running)

/-- R101: STEPS goes up by exactly 1 for each completed instruction, HLT too, and stays for a fault, END and
BUDGET. -/
def Obligations.StepsCountsCompletedInstructions : Prop :=
  ∀ s t : State, step s = .next t →
    ((t.status = .running ∨ t.status = .halted) → t.steps = s.steps + 1) ∧
    ((t.status = .fault ∨ t.status = .ended ∨ t.status = .budget) → t.steps = s.steps)

/-- The next `pc`, by the outcome of the instruction fetched at `pc`: the table of R21, which the spec marks
derived from R95, R113, R114, R120 and R126. -/
def Obligations.NextProgramCounter : Prop :=
  ∀ s t : State, AboutToFetch s → step s = .next t →
    (t.status = .fault → t.pc = s.pc) ∧
    (t.status ≠ .fault → ∃ i, decode (s.imem.read s.pc.toNat) = .instr i ∧
      (∀ p, (i = .jump p ∨ (i = .jumpz p ∧ s.zf = true)) → p.toNat < s.progLen.toNat ∧ t.pc = p) ∧
      (i = .hlt → t.pc = s.pc) ∧
      ((∀ p, i ≠ .jump p) → (∀ p, i = .jumpz p → s.zf = false) → i ≠ .hlt →
        t.pc.toNat = s.pc.toNat + 1))

/-- The trace entries R99 gives an instruction, `now` being the registers after it. -/
def traceEvents (i : Instr) (s : State) (now : RegFile) : List TraceEntry :=
  match i with
  | .load _ a | .store _ a => if a.toNat ≤ 63 then [.exec i now] else []
  | .div _ b => if s.readReg b = 0 then [.divByZero, .exec i now] else [.exec i now]
  | .jump _ => []
  | .jumpz _ => if s.zf then [] else [.exec i now]
  | .hlt => []
  | .mov _ _ | .add _ _ | .sub _ _ | .mul _ _ | .and _ _ | .or _ _ | .not _ | .xor _ _ => [.exec i now]

/-- R99, R100: an instruction appends exactly the entries of the table, in order; a decode fault, END and
BUDGET append none. -/
def Obligations.TraceEntriesOfAStep : Prop :=
  (∀ (i : Instr) (s t : State), exec i s = .next t → t.trace = s.trace ++ traceEvents i s t.regs) ∧
  (∀ s t : State, step s = .next t → (∀ i, decode (s.imem.read s.pc.toNat) ≠ .instr i) ∨
    t.status = .ended ∨ t.status = .budget → t.trace = s.trace)

/-- The program and its length never change in a run (R31, R38, R45, R55). That the budget does not change either
is the model's own clause: the spec calls MAX_STEPS a parameter of the step (R88), and the model holds that
parameter as a field of State (log 1, DEDUCED). -/
def Obligations.ProgramNeverChanges : Prop :=
  ∀ s t : State, step s = .next t → HostInputsKept s t

/-- The words at indices `N` and above do not matter: with any instruction memory that holds the same program, a
step is the same (R39). -/
def Obligations.WordsBeyondTheProgramDoNotMatter : Prop :=
  ∀ (s t : State) (m : ProgMemory), (∀ j : Nat, j < s.progLen.toNat → m.read j = s.imem.read j) →
    step s = .next t → step { s with imem := m } = .next { t with imem := m }

/-- An instruction writes at most the one register its RA field names, where R17's table lists a write. -/
def Obligations.OnlyRAIsWritten : Prop :=
  ∀ (i : Instr) (s t : State), exec i s = .next t →
    ∀ q : Reg, writable i ≠ some q → t.readReg q = s.readReg q

/-- R42: only STORE writes data memory, and one cell; only LOAD reads it, and one cell: whatever data memory
holds, another instruction leaves the same registers, `pc`, `zf`, status, record, count and trace. -/
def Obligations.OnlyLoadAndStoreReachDataMemory : Prop :=
  (∀ (i : Instr) (s t : State), exec i s = .next t → (∀ r a, i ≠ .store r a) → MemKept s t) ∧
  (∀ (r : Reg) (a : Byte) (s t : State), exec (.store r a) s = .next t →
    MemKept s t ∨ ∃ c, dataAddr a = some c ∧ MemKeptBut c.toNat s t) ∧
  (∀ (i : Instr) (s t u : State) (m : Memory), (∀ d a, i ≠ .load d a) →
    exec i s = .next t → exec i { s with dmem := m } = .next u → { u with dmem := t.dmem } = t) ∧
  (∀ (d : Reg) (a : Byte) (s t u : State) (m : Memory), m.read a.toNat = s.dmem.read a.toNat →
    exec (.load d a) s = .next t → exec (.load d a) { s with dmem := m } = .next u →
    { u with dmem := t.dmem } = t)

/-- R24: only the bookkeeping writes `zf`, with what the registers then hold; after JUMP, a taken JUMPZ, HLT
and a faulting instruction it keeps its value. -/
def Obligations.OnlyBookkeepingWritesZeroFlag : Prop :=
  ∀ (i : Instr) (s t : State), s.status = .running → exec i s = .next t →
    ((∃ p, i = .jump p) ∨ (∃ p, i = .jumpz p ∧ s.zf = true) ∨ i = .hlt ∨ t.status = .fault →
      t.zf = s.zf) ∧
    ((∀ p, i ≠ .jump p) → (∀ p, i = .jumpz p → s.zf = false) → i ≠ .hlt → t.status ≠ .fault →
      (t.zf = true ↔ ∃ r : Reg, t.readReg r = 0))

/-- R25: only JUMPZ reads `zf`. Every other instruction leaves the same state whatever `zf` was, but for `zf`
itself. -/
def Obligations.OnlyJumpzReadsZeroFlag : Prop :=
  ∀ (i : Instr) (s t u : State) (b : Bool), (∀ p, i ≠ .jumpz p) →
    exec i s = .next t → exec i { s with zf := b } = .next u → { u with zf := t.zf } = t

/-- An instruction's effect depends on the registers its read ports name, data memory, `zf` and `N`, and on
nothing else of the state (R17, R18, R93). -/
def Obligations.EffectReadsOnlyThePorts : Prop :=
  ∀ (i : Instr) (s t : State),
    (∀ r, portA i = some r → t.readReg r = s.readReg r) →
    (∀ r, portB i = some r → t.readReg r = s.readReg r) →
    MemKept s t → t.zf = s.zf → t.progLen = s.progLen → effectOf i t = effectOf i s

/-- The port view gives the same machine: an instruction commits the effect of R93, after it the registers are
write port W applied to the register file, data memory is the data-memory port applied to the cells, and
`dm_rdata` is the addressed cell and what a read puts on port W (R18, R44, R94). -/
def Obligations.PortsCarryTheEffect : Prop :=
  ∀ (i : Instr) (s t : State), exec i s = .next t →
    t = commit i (effectOf i s) s ∧
    (∀ q : Reg, t.readReg q =
      match portW i s with
      | some (r, v) => if q = r then v else s.readReg q
      | none => s.readReg q) ∧
    (∀ a : Nat, t.dmem.read a =
      if (dmemPort i s).we = true ∧ a = (dmemPort i s).addr.toNat then (dmemPort i s).wdata
      else s.dmem.read a) ∧
    (dmemPort i s).rdata = s.dmem.read (dmemPort i s).addr.toNat ∧
    ((dmemPort i s).re = true → portW i s = (writable i).map (fun r => (r, (dmemPort i s).rdata)))

/-- The execute faults are exactly MEM_RANGE for LOAD and STORE with an address of 64 or more, and
JUMP_RANGE for JUMP and a taken JUMPZ with a target of `N` or more. With operands in bounds an instruction
never faults: the spec's own inference (R141, marked derived). -/
def Obligations.ExecuteFaultsAreOutOfRangeOperands : Prop :=
  ∀ (i : Instr) (s t : State), s.status = .running → exec i s = .next t →
    (t.status = .fault ∧ t.cause = some .memRange ↔
      ∃ r a, (i = .load r a ∨ i = .store r a) ∧ 64 ≤ a.toNat) ∧
    (t.status = .fault ∧ t.cause = some .jumpRange ↔
      ∃ p, (i = .jump p ∨ (i = .jumpz p ∧ s.zf = true)) ∧ s.progLen.toNat ≤ p.toNat) ∧
    ((¬ ∃ r a, (i = .load r a ∨ i = .store r a) ∧ 64 ≤ a.toNat) →
      (¬ ∃ p, (i = .jump p ∨ (i = .jumpz p ∧ s.zf = true)) ∧ s.progLen.toNat ≤ p.toNat) → Safe t)

/-! ### Data transfer (41_data_transfer) -/

/-- R105: MOV writes its literal to Rd; the encoding, the assembler form, and what MOV leaves alone. -/
def Obligations.MovWritesTheLiteral : Prop :=
  (∀ w : Word, fieldOP w = 0x1 → fieldZ w ≠ 0 ∨ 5 < (fieldRA w).toNat →
    decode w = .illegal .illegalOperand) ∧
  ∀ d : Reg,
    (∀ (v : Text) (n : Int), parseInt v = some n →
      assembleLine ['M', 'O', 'V'] [regText d, v] = .instr (.mov d (BitVec.ofInt 8 (n % 256)))) ∧
    ∀ lit : Byte, decode (wordOf 0x1 d.val lit.toNat) = .instr (.mov d lit) ∧
      ∀ s : State, RunsWriting (.mov d lit) d lit s

/-- R106: LOAD copies a cell 0..63 to Rd, unchanged; an address of 64 or more faults MEM_RANGE and changes
nothing else. -/
def Obligations.LoadReadsTheCell : Prop :=
  (∀ (d : Reg) (v : Text) (n : Int), parseInt v = some n →
    assembleLine ['L', 'O', 'A', 'D'] [regText d, v] = .instr (.load d (encodeAddress n))) ∧
  ∀ (d : Reg) (a : Byte),
    decode (wordOf 0x2 d.val a.toNat) = .instr (.load d a) ∧
    (a.toNat ≤ 63 → ∀ s : State, RunsWriting (.load d a) d (s.dmem.read a.toNat) s) ∧
    (64 ≤ a.toNat → ∀ s : State,
      RunsIntoFault (.load d a) .memRange (wordOf 0x2 d.val a.toNat) s)

/-- R107: STORE copies Rs to the cell the address check gives, and no other cell; an address of 64 or more
faults MEM_RANGE and no cell is written. -/
def Obligations.StoreWritesTheCell : Prop :=
  (∀ (r : Reg) (v : Text) (n : Int), parseInt v = some n →
    assembleLine ['S', 'T', 'O', 'R', 'E'] [regText r, v] = .instr (.store r (encodeAddress n))) ∧
  ∀ (r : Reg) (a : Byte),
    decode (wordOf 0x3 r.val a.toNat) = .instr (.store r a) ∧
    (∀ c, dataAddr a = some c → c.toNat = a.toNat ∧ ∀ s : State,
      ∃ t, exec (.store r a) s = .next t ∧ t.dmem.read c.toNat = s.readReg r ∧
        MemKeptBut c.toNat s t ∧ RegsKept s t ∧ Bookkept (.store r a) [] s t) ∧
    (a.toNat ≤ 63 → ∃ c, dataAddr a = some c) ∧
    (64 ≤ a.toNat → ∀ s : State,
      RunsIntoFault (.store r a) .memRange (wordOf 0x3 r.val a.toNat) s)

/-- A LOAD of a cell right after a STORE to it gives the stored register's value, whatever the two registers
(R44, R52, R150). -/
def Obligations.LoadAfterStoreGivesTheValue : Prop :=
  ∀ (r d : Reg) (a : Byte) (s t u : State), a.toNat ≤ 63 →
    exec (.store r a) s = .next t → exec (.load d a) t = .next u → u.readReg d = s.readReg r

/-! ### Arithmetic (42_arithmetic) -/

/-- R109: ADD. -/
def Obligations.AddIsModulo256 : Prop :=
  ∀ a b : Reg,
    decode (wordOf 0x4 a.val b.val) = .instr (.add a b) ∧
    assembleLine ['A', 'D', 'D'] [regText a, regText b] = .instr (.add a b) ∧
    ∀ s : State, ∃ v : Byte, v.toNat = ((s.readReg a).toNat + (s.readReg b).toNat) % 256 ∧
      RunsWriting (.add a b) a v s

/-- R110: SUB; the remainder is the non-negative one. -/
def Obligations.SubIsModulo256 : Prop :=
  ∀ a b : Reg,
    decode (wordOf 0x5 a.val b.val) = .instr (.sub a b) ∧
    assembleLine ['S', 'U', 'B'] [regText a, regText b] = .instr (.sub a b) ∧
    ∀ s : State, ∃ v : Byte,
      v.toNat = (if (s.readReg a).toNat < (s.readReg b).toNat
        then (s.readReg a).toNat + 256 - (s.readReg b).toNat
        else (s.readReg a).toNat - (s.readReg b).toNat) ∧
      RunsWriting (.sub a b) a v s

/-- R111: MUL, the low 8 bits of the product. -/
def Obligations.MulIsModulo256 : Prop :=
  ∀ a b : Reg,
    decode (wordOf 0x6 a.val b.val) = .instr (.mul a b) ∧
    assembleLine ['M', 'U', 'L'] [regText a, regText b] = .instr (.mul a b) ∧
    ∀ s : State, ∃ v : Byte, v.toNat = ((s.readReg a).toNat * (s.readReg b).toNat) % 256 ∧
      RunsWriting (.mul a b) a v s

/-- R112: DIV by a non-zero register gives the quotient rounded down; by zero it completes, leaves every
register, and logs `DivByZero` then `Exec`. That the quotient is at most the dividend, and that `zf` is 1 after a
division by zero, R112 marks as derived. -/
def Obligations.DivFloorsAndRecoversFromZero : Prop :=
  ∀ a b : Reg,
    decode (wordOf 0x7 a.val b.val) = .instr (.div a b) ∧
    assembleLine ['D', 'I', 'V'] [regText a, regText b] = .instr (.div a b) ∧
    (∀ s : State, s.readReg b ≠ 0 →
      ∃ v : Byte, v.toNat = (s.readReg a).toNat / (s.readReg b).toNat ∧
        v.toNat ≤ (s.readReg a).toNat ∧ RunsWriting (.div a b) a v s) ∧
    (∀ s : State, s.readReg b = 0 →
      ∃ t, exec (.div a b) s = .next t ∧ RegsKept s t ∧ MemKept s t ∧ t.zf = true ∧
        Bookkept (.div a b) [.divByZero] s t)

/-- One register in both operand fields: the spec's own inference (R19, marked derived from R18 and the rules of
the instructions). -/
def Obligations.SameRegisterTwice : Prop :=
  ∀ (i : Reg) (s : State),
    (∃ v : Byte, v.toNat = (2 * (s.readReg i).toNat) % 256 ∧ RunsWriting (.add i i) i v s) ∧
    RunsWriting (.sub i i) i 0 s ∧
    (∃ v : Byte, v.toNat = ((s.readReg i).toNat * (s.readReg i).toNat) % 256 ∧
      RunsWriting (.mul i i) i v s) ∧
    (s.readReg i ≠ 0 → RunsWriting (.div i i) i 1 s) ∧
    (s.readReg i = 0 → ∃ t, exec (.div i i) s = .next t ∧ RegsKept s t ∧ MemKept s t ∧
      Bookkept (.div i i) [.divByZero] s t) ∧
    RunsWriting (.and i i) i (s.readReg i) s ∧
    RunsWriting (.or i i) i (s.readReg i) s ∧
    RunsWriting (.xor i i) i 0 s

/-! ### Control (43_control) -/

/-- R113: JUMP to a target below `N` sets `pc`, counts, and bypasses the bookkeeping; any other target faults
JUMP_RANGE. -/
def Obligations.JumpGoesToTheTarget : Prop :=
  (∀ (v : Text) (n : Int), parseInt v = some n →
    assembleLine ['J', 'U', 'M', 'P'] [v] = .instr (.jump (encodeAddress n))) ∧
  ∀ p : Byte,
    decode (wordOf 0x8 0 p.toNat) = .instr (.jump p) ∧
    ∀ s : State,
      (p.toNat < s.progLen.toNat → ∃ t, exec (.jump p) s = .next t ∧ Jumped p s t) ∧
      (s.progLen.toNat ≤ p.toNat → RunsIntoFault (.jump p) .jumpRange (wordOf 0x8 0 p.toNat) s)

/-- R114: JUMPZ with `zf` set is JUMP; with `zf` clear it has the bookkeeping alone, whatever its target. -/
def Obligations.JumpzFollowsTheZeroFlag : Prop :=
  (∀ (v : Text) (n : Int), parseInt v = some n →
    assembleLine ['J', 'U', 'M', 'P', 'Z'] [v] = .instr (.jumpz (encodeAddress n))) ∧
  ∀ p : Byte,
    decode (wordOf 0x9 0 p.toNat) = .instr (.jumpz p) ∧
    ∀ s : State,
      (s.zf = true → p.toNat < s.progLen.toNat → ∃ t, exec (.jumpz p) s = .next t ∧ Jumped p s t) ∧
      (s.zf = true → s.progLen.toNat ≤ p.toNat →
        RunsIntoFault (.jumpz p) .jumpRange (wordOf 0x9 0 p.toNat) s) ∧
      (s.zf = false → ∃ t, exec (.jumpz p) s = .next t ∧ RegsKept s t ∧ MemKept s t ∧
        Bookkept (.jumpz p) [] s t)

/-! ### Logical (44_logical) -/

/-- R116: AND, bit by bit (R115). -/
def Obligations.AndIsBitwise : Prop :=
  ∀ a b : Reg,
    decode (wordOf 0xA a.val b.val) = .instr (.and a b) ∧
    assembleLine ['A', 'N', 'D'] [regText a, regText b] = .instr (.and a b) ∧
    ∀ s : State, ∃ v : Byte,
      (∀ k : Fin 8, v[k] = ((s.readReg a)[k] && (s.readReg b)[k])) ∧ RunsWriting (.and a b) a v s

/-- R117: OR, bit by bit (R115). -/
def Obligations.OrIsBitwise : Prop :=
  ∀ a b : Reg,
    decode (wordOf 0xB a.val b.val) = .instr (.or a b) ∧
    assembleLine ['O', 'R'] [regText a, regText b] = .instr (.or a b) ∧
    ∀ s : State, ∃ v : Byte,
      (∀ k : Fin 8, v[k] = ((s.readReg a)[k] || (s.readReg b)[k])) ∧ RunsWriting (.or a b) a v s

/-- R118: XOR, bit by bit (R115). -/
def Obligations.XorIsBitwise : Prop :=
  ∀ a b : Reg,
    decode (wordOf 0xD a.val b.val) = .instr (.xor a b) ∧
    assembleLine ['X', 'O', 'R'] [regText a, regText b] = .instr (.xor a b) ∧
    ∀ s : State, ∃ v : Byte,
      (∀ k : Fin 8, v[k] = ((s.readReg a)[k] != (s.readReg b)[k])) ∧ RunsWriting (.xor a b) a v s

/-- R119: NOT gives `255 - x`. -/
def Obligations.NotIsOnesComplement : Prop :=
  (∀ w : Word, fieldOP w = 0xC → fieldIMM8 w ≠ 0 → decode w = .illegal .illegalOperand) ∧
  ∀ a : Reg,
    decode (wordOf 0xC a.val 0) = .instr (.not a) ∧
    assembleLine ['N', 'O', 'T'] [regText a] = .instr (.not a) ∧
    ∀ s : State, ∃ v : Byte, v.toNat = 255 - (s.readReg a).toNat ∧ RunsWriting (.not a) a v s

/-! ### System (45_system) -/

/-- R120: HLT sets HALTED, counts one step, and changes nothing else, and the engine takes no further step; a
word of code 15 with any other field set is illegal; with any operand token HLT does not assemble. -/
def Obligations.HltHaltsTheRun : Prop :=
  decode (wordOf 0xF 0 0) = .instr .hlt ∧
  (∀ w : Word, fieldOP w = 0xF → w ≠ 0xF000 → decode w = .illegal .illegalOperand) ∧
  assembleLine ['H', 'L', 'T'] [] = .instr .hlt ∧
  (∀ (x : Text) (xs : List Text), assembleLine ['H', 'L', 'T'] (x :: xs) = .fails .arity) ∧
  ∀ s : State, ∃ t, exec .hlt s = .next t ∧ t.status = .halted ∧ t.steps = s.steps + 1 ∧
    t.pc = s.pc ∧ t.zf = s.zf ∧ t.trace = s.trace ∧ t.cause = s.cause ∧ t.fpc = s.fpc ∧
    t.fword = s.fword ∧ RegsKept s t ∧ MemKept s t ∧ HostInputsKept s t ∧ ∀ u, step t ≠ .next u

/-! ### The assembler (30_encoding R73..R87) -/

/-- R76: a first token selects an opcode exactly when it is the mnemonic in any mixture of ASCII cases (each letter
`a`..`z`, codes 97..122, taken as the letter 32 below, every other character as itself; the mnemonics spelt out), any
other first token fails the line as an unknown opcode, and no other token is case-insensitive: a register
token with a lower-case `r` names no register. -/
def Obligations.MnemonicsAreCaseInsensitive : Prop :=
  (∀ (t : Text) (o : Opcode), parseOpcode t = some o ↔ t.map upperChar = opcodeText o) ∧
  (∀ t : Text, parseOpcode (t.map upperChar) = parseOpcode t) ∧
  (∀ c : Char, (97 ≤ c.toNat ∧ c.toNat ≤ 122 → (upperChar c).toNat = c.toNat - 32) ∧
    (¬ (97 ≤ c.toNat ∧ c.toNat ≤ 122) → upperChar c = c)) ∧
  ([Opcode.mov, .load, .store, .add, .sub, .mul, .div, .jump, .jumpz, .and, .or, .not, .xor, .hlt].map opcodeText =
    ["MOV", "LOAD", "STORE", "ADD", "SUB", "MUL", "DIV", "JUMP", "JUMPZ", "AND", "OR", "NOT", "XOR", "HLT"].map
      String.toList) ∧
  (∀ t : Text, (∀ o : Opcode, t.map upperChar ≠ opcodeText o) →
    ∀ args : List Text, assembleLine t args = .fails .unknownOpcode) ∧
  (∀ cs : Text, parseReg ('r' :: cs) = none)

/-- R80: a literal is encoded modulo 256, with the non-negative remainder. -/
def Obligations.LiteralsAreReducedModulo256 : Prop :=
  ∀ v : Int, ((encodeLiteral v).toNat : Int) = v % 256

/-- R81: an address or target in 0..254 is encoded as itself, any other as 0xFF, which as an address names
no cell and as a target is in range for no program length. -/
def Obligations.AddressesOutsideTheFieldNameNothing : Prop :=
  ∀ v : Int,
    (0 ≤ v ∧ v ≤ 254 → ((encodeAddress v).toNat : Int) = v) ∧
    (¬ (0 ≤ v ∧ v ≤ 254) → encodeAddress v = 0xFF ∧ dataAddr (encodeAddress v) = none ∧
      ∀ n : Byte, targetInRange (encodeAddress v) n = false)

/-- An assembled program fits instruction memory (R84, R82). -/
def Obligations.AssembledProgramFits : Prop :=
  ∀ (policy : AsmPolicy) (src : Text) (is : List Instr),
    assemble policy src = .program is → is.length ≤ 255

/-- R83, R84 under legacy_drop: the program is the instructions of the lines that assemble, in source order;
lines that fail or are blank leave nothing; more than 255 instructions are the error program too long. -/
def Obligations.LegacyDropKeepsTheGoodLines : Prop :=
  ∀ src : Text,
    (((splitLines src).filterMap lineInstr).length ≤ 255 →
      assemble .legacyDrop src = .program ((splitLines src).filterMap lineInstr)) ∧
    (255 < ((splitLines src).filterMap lineInstr).length →
      ∃ n, assemble .legacyDrop src = .error n .programTooLong)

/-- R83 under strict: a program comes out exactly when no line fails and the lines fit, and is then their
instructions in order; so a text with a failing line gives an error, and a reported error is that of the first line
that fails, or of the line with the 256th instruction. -/
def Obligations.StrictStopsAtTheFirstBadLine : Prop :=
  ∀ src : Text,
    ((∀ l ∈ splitLines src, lineError l = none) →
      ((splitLines src).filterMap lineInstr).length ≤ 255 →
      assemble .strict src = .program ((splitLines src).filterMap lineInstr)) ∧
    (∀ is : List Instr, assemble .strict src = .program is →
      (∀ l ∈ splitLines src, lineError l = none) ∧ is = (splitLines src).filterMap lineInstr ∧
        is.length ≤ 255) ∧
    ((∃ l ∈ splitLines src, lineError l ≠ none) → ∃ n e, assemble .strict src = .error n e) ∧
    (∀ (n : Nat) (e : AsmError), assemble .strict src = .error n e →
      ∃ before l after, splitLines src = before ++ l :: after ∧ n = before.length + 1 ∧
        (∀ b ∈ before, lineError b = none) ∧
        (lineError l = some e ∨
          (e = .programTooLong ∧ (before.filterMap lineInstr).length = 255 ∧ (lineInstr l).isSome)))

/-- The canonical text of a program of at most 255 instructions assembles to that program under both policies
(R84, R86, R87). -/
def Obligations.RenderedProgramAssembles : Prop :=
  ∀ (policy : AsmPolicy) (is : List Instr), is.length ≤ 255 →
    assemble policy (renderProgram is) = .program is
end

