-- ==== Sys2Proof/Laws/Assembler.lean ====
section
/-! SUPPORT. The laws of the assembler's parts: the canonical texts of registers, numbers and mnemonics are read
back, tokens and lines of texts put together, and the effect of one line on the rest of the assembly. -/

namespace Sys2Proof.Machine

/-! ### Canonical texts are read back (R78, R79, R86) -/

@[simp] theorem parseReg_regText (r : Reg) : parseReg (regText r) = some r := by revert r; decide

theorem digitValue_digitChar {d : Nat} (h : d < 10) : digitValue (digitChar d) = some d := by
  have : ∀ d : Fin 10, digitValue (digitChar d.val) = some d.val := by decide
  exact this ⟨d, h⟩

theorem digitChar_ne_sign {d : Nat} (h : d < 10) : digitChar d ≠ '+' ∧ digitChar d ≠ '-' := by
  have : ∀ d : Fin 10, digitChar d.val ≠ '+' ∧ digitChar d.val ≠ '-' := by decide
  exact this ⟨d, h⟩

theorem parseInt_of_digit {d : Nat} (h : d < 10) (cs : Text) :
    parseInt (digitChar d :: cs) = (digitsFrom d cs).map (fun n => (n : Int)) := by
  obtain ⟨h1, h2⟩ := digitChar_ne_sign h
  simp [parseInt, h1, h2, parseNat, digitsFrom, digitValue_digitChar h]

@[simp] theorem parseInt_decimal (v : Byte) : parseInt (decimal v) = some (v.toNat : Int) := by
  have hv := v.isLt
  unfold decimal
  simp only
  split_ifs with h1 h2
  · simp [parseInt_of_digit h1, digitsFrom]
  · have d0 := digitValue_digitChar (show v.toNat % 10 < 10 by omega)
    rw [parseInt_of_digit (by omega)]
    simp [digitsFrom, d0]; omega
  · have d0 := digitValue_digitChar (show v.toNat % 10 < 10 by omega)
    have d1 := digitValue_digitChar (show v.toNat / 10 % 10 < 10 by omega)
    rw [parseInt_of_digit (by omega)]
    simp [digitsFrom, d0, d1]; omega

/-- An 8-bit value is encoded as itself, as an address or target: 255 too (R81). -/
@[simp] theorem encodeAddress_toNat (v : Byte) : encodeAddress (v.toNat : Int) = v := by
  have := v.isLt
  unfold encodeAddress
  split_ifs with h
  · simp
  · apply BitVec.eq_of_toNat_eq; simp; omega

/-- An 8-bit value is encoded as itself, as a literal (R80). -/
@[simp] theorem encodeLiteral_toNat (v : Byte) : encodeLiteral (v.toNat : Int) = v := by
  have := v.isLt
  unfold encodeLiteral
  rw [Int.emod_eq_of_lt (by omega) (by omega)]; simp

@[simp] theorem parseOpcode_opcodeText (o : Opcode) : parseOpcode (opcodeText o) = some o := by
  cases o <;> decide

/-! ### Tokens (R75) -/

/-- A text is one word: at least one character, no whitespace, no line feed. -/
def IsWord (t : Text) : Prop := t ≠ [] ∧ ∀ c ∈ t, isSpace c = false ∧ c ≠ '\n'

theorem isWord_of_all {t : Text} (h0 : t ≠ []) (h : t.all (fun c => !isSpace c && c != '\n') = true) :
    IsWord t :=
  ⟨h0, fun c hc => by simpa using List.all_eq_true.1 h c hc⟩

theorem isWord_regText (r : Reg) : IsWord (regText r) :=
  isWord_of_all (by simp [regText]) (by revert r; decide)

theorem isWord_opcodeText (o : Opcode) : IsWord (opcodeText o) :=
  isWord_of_all (by cases o <;> simp [opcodeText]) (by cases o <;> decide)

theorem digitChar_plain {d : Nat} (h : d < 10) :
    isSpace (digitChar d) = false ∧ digitChar d ≠ '\n' := by
  have : ∀ d : Fin 10, isSpace (digitChar d.val) = false ∧ digitChar d.val ≠ '\n' := by decide
  exact this ⟨d, h⟩

theorem isWord_decimal (v : Byte) : IsWord (decimal v) := by
  have hv := v.isLt
  unfold decimal
  simp only
  split_ifs with h1 h2
  · exact ⟨by simp, by simpa using digitChar_plain h1⟩
  · exact ⟨by simp, by
      simpa using ⟨digitChar_plain (d := v.toNat / 10) (by omega),
        digitChar_plain (d := v.toNat % 10) (by omega)⟩⟩
  · exact ⟨by simp, by
      simpa using ⟨digitChar_plain (d := v.toNat / 100) (by omega),
        digitChar_plain (d := v.toNat / 10 % 10) (by omega),
        digitChar_plain (d := v.toNat % 10) (by omega)⟩⟩

/-- Every operand's canonical text is a word. -/
theorem isWord_operandTexts (i : Instr) : ∀ t ∈ operandTexts i, IsWord t := by
  intro t ht
  cases i <;> simp only [operandTexts, List.mem_cons, List.not_mem_nil, or_false] at ht
  all_goals first
    | exact ht.elim
    | (subst ht; first | exact isWord_regText _ | exact isWord_decimal _)
    | (rcases ht with rfl | rfl <;> first | exact isWord_regText _ | exact isWord_decimal _)

theorem tokensFrom_word (t : Text) (h : ∀ c ∈ t, isSpace c = false) (cur rest : Text) :
    tokensFrom cur (t ++ rest) = tokensFrom (cur ++ t) rest := by
  induction t generalizing cur with
  | nil => simp
  | cons c t ih =>
    rw [List.cons_append, tokensFrom, h c List.mem_cons_self, if_neg (by simp),
      ih (fun d hd => h d (List.mem_cons_of_mem c hd))]
    simp

theorem tokensFrom_spaced (ts : List Text) (h : ∀ t ∈ ts, IsWord t) (cur : Text) (hc : cur ≠ []) :
    tokensFrom cur (spaced ts) = cur :: ts := by
  induction ts generalizing cur with
  | nil => simp [spaced, tokensFrom, flushToken, hc]
  | cons t ts ih =>
    have ht := h t List.mem_cons_self
    have e : spaced (t :: ts) = ' ' :: (t ++ spaced ts) := by simp [spaced]
    rw [e, tokensFrom, if_pos (by decide), tokensFrom_word t (fun c hm => (ht.2 c hm).1),
      List.nil_append, ih (fun u hu => h u (List.mem_cons_of_mem t hu)) t ht.1]
    simp [flushToken, hc]

/-- The tokens of an instruction's canonical text are its mnemonic and its operands. -/
theorem tokens_render (i : Instr) : tokens (Instr.render i) = opcodeText i.opcode :: operandTexts i := by
  have h := isWord_opcodeText i.opcode
  rw [tokens, Instr.render, tokensFrom_word _ (fun c hm => (h.2 c hm).1), List.nil_append]
  exact tokensFrom_spaced _ (isWord_operandTexts i) _ h.1

/-! ### Lines (R74) -/

theorem splitLines_ne_nil (t : Text) : splitLines t ≠ [] := by
  induction t with
  | nil => simp [splitLines]
  | cons c t ih =>
    rw [splitLines]
    split_ifs
    · simp
    · split <;> simp

/-- A text without a line feed, ended by one, is the first line. -/
theorem splitLines_line (l rest : Text) (h : ∀ c ∈ l, c ≠ '\n') :
    splitLines (l ++ '\n' :: rest) = l :: splitLines rest := by
  induction l with
  | nil => simp [splitLines]
  | cons c l ih =>
    rw [List.cons_append, splitLines, if_neg (h c List.mem_cons_self),
      ih fun d hd => h d (List.mem_cons_of_mem c hd)]

theorem render_no_lineFeed (i : Instr) : ∀ c ∈ Instr.render i, c ≠ '\n' := by
  intro c hc
  rw [Instr.render, List.mem_append] at hc
  rcases hc with hc | hc
  · exact ((isWord_opcodeText i.opcode).2 c hc).2
  · obtain ⟨t, ht, hc⟩ := List.mem_flatMap.1 hc
    rcases List.mem_cons.1 hc with rfl | hc
    · decide
    · exact ((isWord_operandTexts i t ht).2 c hc).2

/-! ### One line in an assembly (R83, R84) -/

/-- A line that assembles, while there is room. -/
theorem assembleFrom_instr {policy : AsmPolicy} {n : Nat} {done : List Instr} {l : Text} {ls : List Text}
    {i : Instr} (h : lineInstr l = some i) :
    assembleFrom policy n done (l :: ls) =
      if done.length < Config.imemMax then assembleFrom policy (n + 1) (done ++ [i]) ls
      else .error n .programTooLong := by
  unfold lineInstr at h
  rw [assembleFrom]
  split at h
  · cases h
  · rename_i t args ht
    split at h
    · rename_i j hj; cases h; simp only [ht, hj]
    · cases h

/-- A line that fails. -/
theorem assembleFrom_error {policy : AsmPolicy} {n : Nat} {done : List Instr} {l : Text} {ls : List Text}
    {e : AsmError} (h : lineError l = some e) :
    assembleFrom policy n done (l :: ls) =
      match policy with
      | .strict => .error n e
      | .legacyDrop => assembleFrom policy (n + 1) done ls := by
  unfold lineError at h
  rw [assembleFrom]
  split at h
  · cases h
  · rename_i t args ht
    split at h
    · cases h
    · rename_i j hj; cases h; cases policy <;> simp only [ht, hj]

/-- A line that holds no token. -/
theorem assembleFrom_blank {policy : AsmPolicy} {n : Nat} {done : List Instr} {l : Text} {ls : List Text}
    (h1 : lineInstr l = none) (h2 : lineError l = none) :
    assembleFrom policy n done (l :: ls) = assembleFrom policy (n + 1) done ls := by
  unfold lineInstr at h1
  unfold lineError at h2
  rw [assembleFrom]
  split at h1
  · rename_i ht; simp only [ht]
  · rename_i t args ht
    simp only [ht] at h2
    cases hl : assembleLine t args <;> simp [hl] at h1 h2

/-- A line assembles, fails, or holds no token. -/
theorem line_cases (l : Text) :
    (∃ i, lineInstr l = some i ∧ lineError l = none) ∨
      (∃ e, lineInstr l = none ∧ lineError l = some e) ∨
      (lineInstr l = none ∧ lineError l = none) := by
  unfold lineInstr lineError
  split
  · exact .inr (.inr ⟨rfl, rfl⟩)
  · split
    · exact .inl ⟨_, rfl, rfl⟩
    · exact .inr (.inl ⟨_, rfl, rfl⟩)

end Sys2Proof.Machine
end

