-- ==== Sys2Proof/Laws/Decode.lean ====
section
/-! SUPPORT. The fields of a packed word, the operand forms of the decoder inverted once, and the two ways of
writing an instruction's word (shifts of R87, the number of the bit pattern of R63) shown equal. -/

namespace Sys2Proof

/-! ### Fields of a packed word (R57, R87) -/

theorem packWord_eq_append (op : BitVec 4) (ra : BitVec 3) (imm : Byte) :
    packWord op ra imm = (op ++ ra ++ 0#1 ++ imm : BitVec 16) := by
  unfold packWord
  ext i hi; simp; grind

@[simp] theorem fieldOP_packWord (op : BitVec 4) (ra : BitVec 3) (imm : Byte) :
    fieldOP (packWord op ra imm) = op := by
  unfold fieldOP packWord
  ext i hi; simp; grind

@[simp] theorem fieldRA_packWord (op : BitVec 4) (ra : BitVec 3) (imm : Byte) :
    fieldRA (packWord op ra imm) = ra := by
  unfold fieldRA packWord
  ext i hi; simp; grind

@[simp] theorem fieldZ_packWord (op : BitVec 4) (ra : BitVec 3) (imm : Byte) :
    fieldZ (packWord op ra imm) = 0 := by
  unfold fieldZ packWord
  ext i hi; simp; grind

@[simp] theorem fieldIMM8_packWord (op : BitVec 4) (ra : BitVec 3) (imm : Byte) :
    fieldIMM8 (packWord op ra imm) = imm := by
  unfold fieldIMM8 packWord
  ext i hi; simp; grind

/-- `RB` is the low three bits of `IMM8` (R57). -/
theorem fieldRB_eq (w : Word) : fieldRB w = (fieldIMM8 w).extractLsb' 0 3 := by
  unfold fieldRB fieldIMM8
  ext i hi; simp

/-- `HI5` is the high five bits of `IMM8` (R57). -/
theorem fieldHI5_eq (w : Word) : fieldHI5 w = (fieldIMM8 w).extractLsb' 3 5 := by
  unfold fieldHI5 fieldIMM8
  ext i hi; simp

/-- A word with `Z = 0` is its three other fields, packed. -/
theorem packWord_fields (w : Word) (h : fieldZ w = 0) :
    packWord (fieldOP w) (fieldRA w) (fieldIMM8 w) = w := by
  have h8 : w.getLsbD 8 = false := by
    have := congrArg (fun z : BitVec 1 => z.getLsbD 0) h
    simpa [fieldZ] using this
  unfold packWord fieldOP fieldRA fieldIMM8
  apply BitVec.eq_of_getLsbD_eq
  intro i hi
  rcases (by omega : i < 8 ∨ i = 8 ∨ (9 ≤ i ∧ i < 12) ∨ 12 ≤ i) with h | rfl | h | h
  · simp [hi, h]; grind
  · simpa using h8
  · simp [hi]; grind
  · simp [hi]; grind

/-! ### Register fields (R60) -/

@[simp] theorem regOf_regField (r : Reg) : regOf (regField r) = some r := by revert r; decide

@[simp] theorem rb_regImm (r : Reg) : (regImm r).extractLsb' 0 3 = regField r := by revert r; decide

@[simp] theorem hi5_regImm (r : Reg) : (regImm r).extractLsb' 3 5 = 0 := by revert r; decide

/-- A field names a register exactly when it is that register's field, 0..5 (R60). -/
theorem regOf_eq_some {k : BitVec 3} {r : Reg} : regOf k = some r ↔ k = regField r := by
  revert k r; decide

/-- An `IMM8` with `HI5 = 0` whose low bits are a register's field is that register's `IMM8`. -/
theorem regImm_of_fields {v : Byte} {r : Reg} (hi : v.extractLsb' 3 5 = 0)
    (lo : v.extractLsb' 0 3 = regField r) : v = regImm r := by
  revert v r; decide

/-! ### Opcodes (R62) -/

@[simp] theorem opcodeOf_code (o : Opcode) : opcodeOf o.code = some o := by cases o <;> rfl

theorem opcodeOf_eq_some {c : BitVec 4} {o : Opcode} (h : opcodeOf c = some o) : o.code = c := by
  revert c o; decide

/-- Only codes 0 and 14 name no opcode (R65, R66). -/
theorem opcodeOf_eq_none {c : BitVec 4} : opcodeOf c = none ↔ c = 0 ∨ c = 14 := by
  revert c; decide

/-! ### The decoder's operand forms, inverted -/

theorem decodeRegImm_eq_some {mk : Reg → Byte → Instr} {w : Word} {i : Instr} :
    decodeRegImm mk w = some i ↔
      fieldZ w = 0 ∧ ∃ a, fieldRA w = regField a ∧ i = mk a (fieldIMM8 w) := by
  unfold decodeRegImm
  split_ifs with h
  · simp only [Option.map_eq_some_iff, regOf_eq_some]
    grind
  · exact iff_of_false (by simp) fun hz => h hz.1

theorem decodeRegReg_eq_some {mk : Reg → Reg → Instr} {w : Word} {i : Instr} :
    decodeRegReg mk w = some i ↔
      fieldZ w = 0 ∧ ∃ a b, fieldRA w = regField a ∧ fieldIMM8 w = regImm b ∧ i = mk a b := by
  unfold decodeRegReg
  rw [fieldHI5_eq, fieldRB_eq]
  split_ifs with h
  · simp only [Option.bind_eq_some_iff, Option.map_eq_some_iff, regOf_eq_some]
    constructor
    · rintro ⟨a, ha, b, hb, rfl⟩
      exact ⟨h.1, a, b, ha, regImm_of_fields h.2 hb, rfl⟩
    · rintro ⟨_, a, b, ha, hb, rfl⟩
      exact ⟨a, ha, b, by rw [hb]; simp, rfl⟩
  · refine iff_of_false (by simp) fun ⟨hz, a, b, _, hb, _⟩ => h ⟨hz, ?_⟩
    rw [hb]; simp

theorem decodeReg_eq_some {mk : Reg → Instr} {w : Word} {i : Instr} :
    decodeReg mk w = some i ↔
      fieldZ w = 0 ∧ fieldIMM8 w = 0 ∧ ∃ a, fieldRA w = regField a ∧ i = mk a := by
  unfold decodeReg
  split_ifs with h
  · simp only [Option.map_eq_some_iff, regOf_eq_some]
    grind
  · exact iff_of_false (by simp) fun hz => h ⟨hz.1, hz.2.1⟩

theorem decodeTarget_eq_some {mk : Byte → Instr} {w : Word} {i : Instr} :
    decodeTarget mk w = some i ↔ fieldRA w = 0 ∧ fieldZ w = 0 ∧ i = mk (fieldIMM8 w) := by
  unfold decodeTarget
  split_ifs with h <;> grind

theorem decodeNone_eq_some {j : Instr} {w : Word} {i : Instr} :
    decodeNone j w = some i ↔ fieldRA w = 0 ∧ fieldZ w = 0 ∧ fieldIMM8 w = 0 ∧ i = j := by
  unfold decodeNone
  split_ifs with h <;> grind

/-- Decoding to an instruction: its opcode, and its operand fields. -/
theorem decode_eq_instr {w : Word} {i : Instr} :
    decode w = .instr i ↔ ∃ op, fieldOP w = op.code ∧ decodeOperands op w = some i := by
  unfold decode
  constructor
  · intro h
    split at h
    · cases h
    · rename_i op ho
      split at h
      · cases h
      · rename_i j hj
        cases h
        exact ⟨op, (opcodeOf_eq_some ho).symm, hj⟩
  · rintro ⟨op, ho, hi⟩
    simp [ho, hi]

/-- Decoding to `Illegal(ILLEGAL_OPERAND)`: a legal opcode whose operand fields fail (R72). -/
theorem decode_eq_illegalOperand {w : Word} :
    decode w = .illegal .illegalOperand ↔
      ∃ op, fieldOP w = op.code ∧ decodeOperands op w = none := by
  unfold decode
  constructor
  · intro h
    split at h
    · cases h
    · rename_i op ho
      split at h
      · exact ⟨op, (opcodeOf_eq_some ho).symm, ‹_›⟩
      · cases h
  · rintro ⟨op, ho, hi⟩
    simp [ho, hi]

/-- Decoding to `Illegal(ILLEGAL_OPCODE)`: the opcode alone decides (R72). -/
theorem decode_eq_illegalOpcode {w : Word} :
    decode w = .illegal .illegalOpcode ↔ fieldOP w = 0 ∨ fieldOP w = 14 := by
  rw [← opcodeOf_eq_none]
  unfold decode
  constructor
  · intro h
    split at h
    · assumption
    · split at h <;> cases h
  · intro h
    simp [h]

/-! ### The word of a bit pattern -/

/-- The number of the pattern `oooo aaa0 iiii iiii` is the word of R87. -/
theorem wordOf_eq_packWord (op : BitVec 4) (a : BitVec 3) (v : Byte) :
    Machine.wordOf op.toNat a.toNat v.toNat = packWord op a v := by
  rw [packWord_eq_append]
  apply BitVec.eq_of_toNat_eq
  have ho := op.isLt; have ha := a.isLt; have hv := v.isLt
  simp only [BitVec.toNat_append, Machine.wordOf, BitVec.toNat_ofNat]
  rw [Nat.shiftLeft_eq, Nat.shiftLeft_eq, Nat.shiftLeft_eq]
  have e1 : op.toNat * 2 ^ 3 ||| a.toNat = op.toNat * 8 + a.toNat := by
    rw [← Nat.shiftLeft_eq, Nat.shiftLeft_add_eq_or_of_lt ha]
  have e3 (n : Nat) : n * 2 ^ 8 ||| v.toNat = n * 256 + v.toNat := by
    rw [← Nat.shiftLeft_eq, ← Nat.shiftLeft_add_eq_or_of_lt hv, Nat.shiftLeft_eq]
  rw [e1]
  have e2 (n : Nat) : n * 2 ^ 1 ||| 0 % 2 ^ 1 = n * 2 := by simp
  rw [e2, e3]
  omega

/-! ### A word as its five fields; the table rows -/

/-- Two words are equal exactly when their fields are. -/
theorem word_eq_iff_fields (v w : Word) :
    v = w ↔ fieldOP v = fieldOP w ∧ fieldRA v = fieldRA w ∧ fieldZ v = fieldZ w ∧
      fieldHI5 v = fieldHI5 w ∧ fieldRB v = fieldRB w := by
  constructor
  · rintro rfl; simp
  · rintro ⟨h1, h2, h3, h4, h5⟩
    have k : ∀ x : Word, x = fieldOP x ++ fieldRA x ++ fieldZ x ++ fieldHI5 x ++ fieldRB x := by
      intro x
      unfold fieldOP fieldRA fieldZ fieldHI5 fieldRB
      ext i hi
      simp
      grind
    rw [k v, k w, h1, h2, h3, h4, h5]

/-- A mask acts on each field by itself. -/
theorem fields_and (v w : Word) :
    fieldOP (v &&& w) = fieldOP v &&& fieldOP w ∧ fieldRA (v &&& w) = fieldRA v &&& fieldRA w ∧
      fieldZ (v &&& w) = fieldZ v &&& fieldZ w ∧ fieldHI5 (v &&& w) = fieldHI5 v &&& fieldHI5 w ∧
      fieldRB (v &&& w) = fieldRB v &&& fieldRB w := by
  unfold fieldOP fieldRA fieldZ fieldHI5 fieldRB
  refine ⟨?_, ?_, ?_, ?_, ?_⟩ <;> ext i hi <;> simp

/-- `IMM8` is zero when both its parts are. -/
theorem fieldIMM8_eq_zero (w : Word) : fieldIMM8 w = 0 ↔ fieldHI5 w = 0 ∧ fieldRB w = 0 := by
  rw [fieldHI5_eq, fieldRB_eq]; generalize fieldIMM8 w = v; revert v; decide

/-- `IMM8` is a register value when `HI5` is zero and `RB` is the register. -/
theorem fieldIMM8_eq_regImm (w : Word) (b : Reg) :
    fieldIMM8 w = regImm b ↔ fieldHI5 w = 0 ∧ fieldRB w = regField b := by
  rw [fieldHI5_eq, fieldRB_eq]; generalize fieldIMM8 w = v; revert v b; decide

theorem regField_toNat (r : Reg) : (regField r).toNat = r.val := by revert r; decide

theorem regImm_toNat (r : Reg) : (regImm r).toNat = r.val := by revert r; decide

/-- What a row accepts, field by field. -/
theorem accepts_iff (r : TableRow) (w : Word) : r.accepts w = true ↔
    (fieldOP w &&& fieldOP r.mask = fieldOP r.pattern ∧
      fieldRA w &&& fieldRA r.mask = fieldRA r.pattern ∧ fieldZ w &&& fieldZ r.mask = fieldZ r.pattern ∧
      fieldHI5 w &&& fieldHI5 r.mask = fieldHI5 r.pattern ∧
      fieldRB w &&& fieldRB r.mask = fieldRB r.pattern) ∧
    (r.hasRA = true → ∃ a, fieldRA w = regField a) ∧ (r.hasRB = true → ∃ b, fieldRB w = regField b) := by
  have hk : ∀ k : BitVec 3, k.toNat ≤ 5 ↔ ∃ a : Reg, k = regField a := by decide
  have := fields_and w r.mask
  simp only [TableRow.accepts, Bool.and_eq_true, beq_iff_eq, Bool.or_eq_true, Bool.not_eq_true',
    decide_eq_true_eq, hk]
  rw [word_eq_iff_fields]
  grind

end Sys2Proof
end

