-- ==== Sys2Proof/Laws/Memory.lean ====
section
/-! SUPPORT. The laws of data and instruction memory: read after write, the canonical form kept by every
operation, and equal reads mean equal memories. -/

namespace Sys2Proof.Machine

/-! ### Cells by key -/

section Cells
variable {α : Type}

@[simp] theorem cellLookup_nil (a : Nat) : cellLookup ([] : List (Nat × α)) a = none := rfl

theorem cellLookup_cons (k : Nat) (v : α) (l : List (Nat × α)) (a : Nat) :
    cellLookup ((k, v) :: l) a = if k = a then some v else cellLookup l a := rfl

theorem cellLookup_erase_same (l : List (Nat × α)) (a : Nat) : cellLookup (cellErase l a) a = none := by
  induction l with
  | nil => rfl
  | cons c l ih =>
    obtain ⟨k, v⟩ := c
    by_cases h : k = a <;> simp_all [cellErase, cellLookup_cons]

theorem cellLookup_erase_ne (l : List (Nat × α)) (a b : Nat) (h : b ≠ a) :
    cellLookup (cellErase l a) b = cellLookup l b := by
  induction l with
  | nil => rfl
  | cons c l ih =>
    obtain ⟨k, v⟩ := c
    by_cases hk : k = a
    · subst hk; simp_all [cellErase, cellLookup_cons, Ne.symm h]
    · simp_all [cellErase, cellLookup_cons]

theorem cellLookup_insert_same (l : List (Nat × α)) (a : Nat) (v : α) (h : cellLookup l a = none) :
    cellLookup (cellInsert l a v) a = some v := by
  induction l with
  | nil => simp [cellInsert, cellLookup_cons]
  | cons c l ih =>
    obtain ⟨k, u⟩ := c
    by_cases hk : k = a
    · simp [cellLookup_cons, hk] at h
    · rw [cellLookup_cons, if_neg hk] at h
      by_cases ha : a < k <;> simp [cellInsert, cellLookup_cons, hk, ha, ih h]

theorem cellLookup_insert_ne (l : List (Nat × α)) (a b : Nat) (v : α) (h : b ≠ a) :
    cellLookup (cellInsert l a v) b = cellLookup l b := by
  induction l with
  | nil => simp [cellInsert, cellLookup_cons, Ne.symm h]
  | cons c l ih =>
    obtain ⟨k, u⟩ := c
    by_cases ha : a < k <;> simp [cellInsert, cellLookup_cons, ha, Ne.symm h, ih]

theorem mem_cellErase (l : List (Nat × α)) (a : Nat) (c : Nat × α) :
    c ∈ cellErase l a ↔ c ∈ l ∧ c.1 ≠ a := by
  simp [cellErase]

theorem mem_cellInsert (l : List (Nat × α)) (a : Nat) (v : α) (c : Nat × α) :
    c ∈ cellInsert l a v ↔ c = (a, v) ∨ c ∈ l := by
  induction l with
  | nil => simp [cellInsert]
  | cons d l ih =>
    obtain ⟨k, u⟩ := d
    by_cases ha : a < k <;> simp [cellInsert, ha, ih]
    tauto

theorem cellsRising_erase (l : List (Nat × α)) (a : Nat) (h : cellsRising l) :
    cellsRising (cellErase l a) :=
  h.sublist List.filter_sublist

theorem cellsRising_insert (l : List (Nat × α)) (a : Nat) (v : α) (h : cellsRising l)
    (ha : ∀ c ∈ l, c.1 ≠ a) : cellsRising (cellInsert l a v) := by
  induction l with
  | nil => simp [cellInsert]
  | cons d l ih =>
    obtain ⟨k, u⟩ := d
    obtain ⟨h1, h2⟩ := List.pairwise_cons.1 h
    by_cases hk : a < k
    · rw [cellInsert, if_pos hk]
      refine List.pairwise_cons.2 ⟨fun c hc => ?_, h⟩
      rcases List.mem_cons.1 hc with rfl | hc
      · exact hk
      · exact lt_trans hk (h1 c hc)
    · rw [cellInsert, if_neg hk]
      refine List.pairwise_cons.2 ⟨fun c hc => ?_, ih h2 fun c hc => ha c (List.mem_cons_of_mem _ hc)⟩
      rcases (mem_cellInsert l a v c).1 hc with rfl | hc
      · have := ha (k, u) List.mem_cons_self
        simp at this ⊢; omega
      · exact h1 c hc

theorem cellLookup_eq_none (l : List (Nat × α)) (a : Nat) :
    cellLookup l a = none ↔ ∀ c ∈ l, c.1 ≠ a := by
  induction l with
  | nil => simp
  | cons d l ih =>
    obtain ⟨k, u⟩ := d
    by_cases h : k = a <;> simp [cellLookup_cons, h, ih]

theorem cellLookup_of_mem (l : List (Nat × α)) (h : cellsRising l) (c : Nat × α) (hc : c ∈ l) :
    cellLookup l c.1 = some c.2 := by
  induction l with
  | nil => cases hc
  | cons d l ih =>
    obtain ⟨k, u⟩ := d
    obtain ⟨h1, h2⟩ := List.pairwise_cons.1 h
    rcases List.mem_cons.1 hc with rfl | hc
    · simp [cellLookup_cons]
    · have := h1 c hc
      rw [cellLookup_cons, if_neg (by simp at this; omega), ih h2 hc]

theorem mem_of_cellLookup (l : List (Nat × α)) (a : Nat) (v : α) (h : cellLookup l a = some v) :
    (a, v) ∈ l := by
  induction l with
  | nil => simp at h
  | cons d l ih =>
    obtain ⟨k, u⟩ := d
    by_cases hk : k = a
    · simp [cellLookup_cons, hk] at h; simp [hk, h]
    · rw [cellLookup_cons, if_neg hk] at h
      exact List.mem_cons_of_mem _ (ih h)

/-- Rising lists that list the same cells are the same list. -/
theorem cells_ext (l m : List (Nat × α)) (hl : cellsRising l) (hm : cellsRising m)
    (h : ∀ a, cellLookup l a = cellLookup m a) : l = m := by
  have mem : ∀ c, c ∈ l ↔ c ∈ m := fun c =>
    ⟨fun hc => mem_of_cellLookup m c.1 c.2 (h c.1 ▸ cellLookup_of_mem l hl c hc),
     fun hc => mem_of_cellLookup l c.1 c.2 (h c.1 ▸ cellLookup_of_mem m hm c hc)⟩
  have nodup : ∀ l : List (Nat × α), cellsRising l → l.Nodup := fun l hl =>
    hl.imp fun hab e => by simp [e] at hab
  refine List.Perm.eq_of_pairwise (le := fun c d => c.1 < d.1) ?_ hl hm
    ((List.perm_ext_iff_of_nodup (nodup l hl) (nodup m hm)).2 mem)
  intro a b _ _ hab hba
  omega

end Cells

/-! ### Data memory -/

/-- An unlisted cell reads 0 (R33, R44). -/
@[simp] theorem Memory.read_nil (a : Nat) : Memory.read [] a = 0 := rfl

/-- Read after write, same cell (R44). -/
@[simp] theorem Memory.read_write_same (m : Memory) (a : Nat) (v : Byte) : (m.write a v).read a = v := by
  unfold Memory.read Memory.write
  split_ifs with h
  · simp [cellLookup_erase_same, h]
  · simp [cellLookup_insert_same, cellLookup_erase_same]

/-- Read after write, another cell (R44). -/
theorem Memory.read_write_ne (m : Memory) (a b : Nat) (v : Byte) (h : b ≠ a) :
    (m.write a v).read b = m.read b := by
  unfold Memory.read Memory.write
  split_ifs
  · rw [cellLookup_erase_ne m a b h]
  · rw [cellLookup_insert_ne _ a b v h, cellLookup_erase_ne m a b h]

theorem Memory.wf_nil : Memory.wf [] := by simp [Memory.wf]

/-- A write below 64 keeps the canonical form. -/
theorem Memory.wf_write (m : Memory) (a : Nat) (v : Byte) (h : m.wf) (ha : a < Config.dmemCells) :
    (m.write a v).wf := by
  obtain ⟨hs, hc⟩ := h
  unfold Memory.write
  split_ifs with hv
  · exact ⟨cellsRising_erase m a hs, fun c hm => hc c ((mem_cellErase m a c).1 hm).1⟩
  · refine ⟨cellsRising_insert _ a v (cellsRising_erase m a hs)
      fun c hm => ((mem_cellErase m a c).1 hm).2, fun c hm => ?_⟩
    rcases (mem_cellInsert _ a v c).1 hm with rfl | hm
    · exact ⟨ha, hv⟩
    · exact hc c ((mem_cellErase m a c).1 hm).1

/-- Equal reads, equal canonical memories. -/
theorem Memory.wf_ext (m n : Memory) (hm : m.wf) (hn : n.wf) (h : ∀ a, m.read a = n.read a) : m = n := by
  refine cells_ext m n hm.1 hn.1 fun a => ?_
  have ne : ∀ m : Memory, m.wf → ∀ a, cellLookup m a ≠ some 0 := fun m hm a e =>
    (hm.2 _ (mem_of_cellLookup m a 0 e)).2 rfl
  have := h a
  have h1 := ne m hm a
  have h2 := ne n hn a
  unfold Memory.read at this
  cases e1 : cellLookup m a <;> cases e2 : cellLookup n a <;> simp_all

/-! ### Instruction memory -/

/-- The word the host loads at an index is the word there. -/
@[simp] theorem ProgMemory.read_load_same (m : ProgMemory) (i : Nat) (w : Word) :
    (m.load i w).read i = w := by
  simp [ProgMemory.read, ProgMemory.load, cellLookup_insert_same, cellLookup_erase_same]

/-- Loading a word leaves every other index alone. -/
theorem ProgMemory.read_load_ne (m : ProgMemory) (i j : Nat) (w : Word) (h : j ≠ i) :
    (m.load i w).read j = m.read j := by
  simp [ProgMemory.read, ProgMemory.load, cellLookup_insert_ne, cellLookup_erase_ne, h]

theorem ProgMemory.wf_nil : ProgMemory.wf [] := by simp [ProgMemory.wf]

/-- Loading a word below 255 keeps the form. -/
theorem ProgMemory.wf_load (m : ProgMemory) (i : Nat) (w : Word) (h : m.wf) (hi : i < Config.imemMax) :
    (m.load i w).wf := by
  obtain ⟨hs, hc⟩ := h
  refine ⟨cellsRising_insert _ i w (cellsRising_erase m i hs)
    fun c hm => ((mem_cellErase m i c).1 hm).2, fun c hm => ?_⟩
  rcases (mem_cellInsert _ i w c).1 hm with rfl | hm
  · exact hi
  · exact hc c ((mem_cellErase m i c).1 hm).1

theorem cellsRising_zipIdx (prog : List Word) (k : Nat) :
    cellsRising ((prog.zipIdx k).map fun c => (c.2, c.1)) := by
  induction prog generalizing k with
  | nil => simp
  | cons w ws ih =>
    rw [List.zipIdx_cons, List.map_cons]
    refine List.pairwise_cons.2 ⟨fun c hc => ?_, ih (k + 1)⟩
    obtain ⟨d, hd, rfl⟩ := List.mem_map.1 hc
    have := List.le_snd_of_mem_zipIdx hd
    simp; omega

/-- A program that fits is loaded in canonical form (R38). -/
theorem loadProgram_wf (prog : List Word) (h : prog.length ≤ Config.imemMax) :
    ProgMemory.wf (loadProgram prog) := by
  refine ⟨cellsRising_zipIdx prog 0, fun c hc => ?_⟩
  obtain ⟨d, hd, rfl⟩ := List.mem_map.1 hc
  have := List.snd_lt_of_mem_zipIdx hd
  simp at this ⊢; omega

/-- The host's load puts word `i` of the program at index `i` (R144). -/
theorem loadProgram_read (prog : List Word) (i : Nat) (h : i < prog.length) :
    ProgMemory.read (loadProgram prog) i = prog[i] := by
  have hm : (i, prog[i]) ∈ loadProgram prog :=
    List.mem_map.2 ⟨(prog[i], i), by simp [List.mem_zipIdx_iff_getElem?], rfl⟩
  have := cellLookup_of_mem (loadProgram prog) (cellsRising_zipIdx prog 0) _ hm
  simp [ProgMemory.read, this]

end Sys2Proof.Machine
end

