-- ==== Sys2Proof/Laws/State.lean ====
section
/-! SUPPORT. What each update of State does to each field, one lemma per field per update, so that no later proof
unfolds a record update. -/

namespace Sys2Proof.Machine

/-! ### recomputeZf -/

@[simp] theorem recomputeZf_regs (s : State) : s.recomputeZf.regs = s.regs := rfl

@[simp] theorem recomputeZf_dmem (s : State) : s.recomputeZf.dmem = s.dmem := rfl

@[simp] theorem recomputeZf_imem (s : State) : s.recomputeZf.imem = s.imem := rfl

@[simp] theorem recomputeZf_progLen (s : State) : s.recomputeZf.progLen = s.progLen := rfl

@[simp] theorem recomputeZf_pc (s : State) : s.recomputeZf.pc = s.pc := rfl

@[simp] theorem recomputeZf_zf (s : State) : s.recomputeZf.zf = zeroDetect s.regs := rfl

@[simp] theorem recomputeZf_status (s : State) : s.recomputeZf.status = s.status := rfl

@[simp] theorem recomputeZf_cause (s : State) : s.recomputeZf.cause = s.cause := rfl

@[simp] theorem recomputeZf_fpc (s : State) : s.recomputeZf.fpc = s.fpc := rfl

@[simp] theorem recomputeZf_fword (s : State) : s.recomputeZf.fword = s.fword := rfl

@[simp] theorem recomputeZf_steps (s : State) : s.recomputeZf.steps = s.steps := rfl

@[simp] theorem recomputeZf_maxSteps (s : State) : s.recomputeZf.maxSteps = s.maxSteps := rfl

@[simp] theorem recomputeZf_trace (s : State) : s.recomputeZf.trace = s.trace := rfl

/-! ### writeReg -/

@[simp] theorem writeReg_regs (s : State) (r : Reg) (v : Byte) : (s.writeReg r v).regs = s.regs.set r v := rfl

@[simp] theorem writeReg_dmem (s : State) (r : Reg) (v : Byte) : (s.writeReg r v).dmem = s.dmem := rfl

@[simp] theorem writeReg_imem (s : State) (r : Reg) (v : Byte) : (s.writeReg r v).imem = s.imem := rfl

@[simp] theorem writeReg_progLen (s : State) (r : Reg) (v : Byte) : (s.writeReg r v).progLen = s.progLen := rfl

@[simp] theorem writeReg_pc (s : State) (r : Reg) (v : Byte) : (s.writeReg r v).pc = s.pc := rfl

@[simp] theorem writeReg_zf (s : State) (r : Reg) (v : Byte) : (s.writeReg r v).zf = s.zf := rfl

@[simp] theorem writeReg_status (s : State) (r : Reg) (v : Byte) : (s.writeReg r v).status = s.status := rfl

@[simp] theorem writeReg_cause (s : State) (r : Reg) (v : Byte) : (s.writeReg r v).cause = s.cause := rfl

@[simp] theorem writeReg_fpc (s : State) (r : Reg) (v : Byte) : (s.writeReg r v).fpc = s.fpc := rfl

@[simp] theorem writeReg_fword (s : State) (r : Reg) (v : Byte) : (s.writeReg r v).fword = s.fword := rfl

@[simp] theorem writeReg_steps (s : State) (r : Reg) (v : Byte) : (s.writeReg r v).steps = s.steps := rfl

@[simp] theorem writeReg_maxSteps (s : State) (r : Reg) (v : Byte) : (s.writeReg r v).maxSteps = s.maxSteps := rfl

@[simp] theorem writeReg_trace (s : State) (r : Reg) (v : Byte) : (s.writeReg r v).trace = s.trace := rfl

/-! ### endRun -/

@[simp] theorem endRun_regs (s : State) : s.endRun.regs = s.regs := rfl

@[simp] theorem endRun_dmem (s : State) : s.endRun.dmem = s.dmem := rfl

@[simp] theorem endRun_imem (s : State) : s.endRun.imem = s.imem := rfl

@[simp] theorem endRun_progLen (s : State) : s.endRun.progLen = s.progLen := rfl

@[simp] theorem endRun_pc (s : State) : s.endRun.pc = s.pc := rfl

@[simp] theorem endRun_zf (s : State) : s.endRun.zf = s.zf := rfl

@[simp] theorem endRun_status (s : State) : s.endRun.status = .ended := rfl

@[simp] theorem endRun_cause (s : State) : s.endRun.cause = s.cause := rfl

@[simp] theorem endRun_fpc (s : State) : s.endRun.fpc = s.fpc := rfl

@[simp] theorem endRun_fword (s : State) : s.endRun.fword = s.fword := rfl

@[simp] theorem endRun_steps (s : State) : s.endRun.steps = s.steps := rfl

@[simp] theorem endRun_maxSteps (s : State) : s.endRun.maxSteps = s.maxSteps := rfl

@[simp] theorem endRun_trace (s : State) : s.endRun.trace = s.trace := rfl

/-! ### budgetRun -/

@[simp] theorem budgetRun_regs (s : State) : s.budgetRun.regs = s.regs := rfl

@[simp] theorem budgetRun_dmem (s : State) : s.budgetRun.dmem = s.dmem := rfl

@[simp] theorem budgetRun_imem (s : State) : s.budgetRun.imem = s.imem := rfl

@[simp] theorem budgetRun_progLen (s : State) : s.budgetRun.progLen = s.progLen := rfl

@[simp] theorem budgetRun_pc (s : State) : s.budgetRun.pc = s.pc := rfl

@[simp] theorem budgetRun_zf (s : State) : s.budgetRun.zf = s.zf := rfl

@[simp] theorem budgetRun_status (s : State) : s.budgetRun.status = .budget := rfl

@[simp] theorem budgetRun_cause (s : State) : s.budgetRun.cause = s.cause := rfl

@[simp] theorem budgetRun_fpc (s : State) : s.budgetRun.fpc = s.fpc := rfl

@[simp] theorem budgetRun_fword (s : State) : s.budgetRun.fword = s.fword := rfl

@[simp] theorem budgetRun_steps (s : State) : s.budgetRun.steps = s.steps := rfl

@[simp] theorem budgetRun_maxSteps (s : State) : s.budgetRun.maxSteps = s.maxSteps := rfl

@[simp] theorem budgetRun_trace (s : State) : s.budgetRun.trace = s.trace := rfl

/-! ### takeFault -/

@[simp] theorem takeFault_regs (c : Cause) (w : Word) (s : State) : (takeFault c w s).regs = s.regs := rfl

@[simp] theorem takeFault_dmem (c : Cause) (w : Word) (s : State) : (takeFault c w s).dmem = s.dmem := rfl

@[simp] theorem takeFault_imem (c : Cause) (w : Word) (s : State) : (takeFault c w s).imem = s.imem := rfl

@[simp] theorem takeFault_progLen (c : Cause) (w : Word) (s : State) : (takeFault c w s).progLen = s.progLen := rfl

@[simp] theorem takeFault_pc (c : Cause) (w : Word) (s : State) : (takeFault c w s).pc = s.pc := rfl

@[simp] theorem takeFault_zf (c : Cause) (w : Word) (s : State) : (takeFault c w s).zf = s.zf := rfl

@[simp] theorem takeFault_status (c : Cause) (w : Word) (s : State) : (takeFault c w s).status = .fault := rfl

@[simp] theorem takeFault_cause (c : Cause) (w : Word) (s : State) : (takeFault c w s).cause = some c := rfl

@[simp] theorem takeFault_fpc (c : Cause) (w : Word) (s : State) : (takeFault c w s).fpc = s.pc := rfl

@[simp] theorem takeFault_fword (c : Cause) (w : Word) (s : State) : (takeFault c w s).fword = w := rfl

@[simp] theorem takeFault_steps (c : Cause) (w : Word) (s : State) : (takeFault c w s).steps = s.steps := rfl

@[simp] theorem takeFault_maxSteps (c : Cause) (w : Word) (s : State) : (takeFault c w s).maxSteps = s.maxSteps := rfl

@[simp] theorem takeFault_trace (c : Cause) (w : Word) (s : State) : (takeFault c w s).trace = s.trace := rfl

/-! ### appendTrace -/

@[simp] theorem appendTrace_regs (s : State) (e : TraceEntry) : (s.appendTrace e).regs = s.regs := rfl

@[simp] theorem appendTrace_dmem (s : State) (e : TraceEntry) : (s.appendTrace e).dmem = s.dmem := rfl

@[simp] theorem appendTrace_imem (s : State) (e : TraceEntry) : (s.appendTrace e).imem = s.imem := rfl

@[simp] theorem appendTrace_progLen (s : State) (e : TraceEntry) : (s.appendTrace e).progLen = s.progLen := rfl

@[simp] theorem appendTrace_pc (s : State) (e : TraceEntry) : (s.appendTrace e).pc = s.pc := rfl

@[simp] theorem appendTrace_zf (s : State) (e : TraceEntry) : (s.appendTrace e).zf = s.zf := rfl

@[simp] theorem appendTrace_status (s : State) (e : TraceEntry) : (s.appendTrace e).status = s.status := rfl

@[simp] theorem appendTrace_cause (s : State) (e : TraceEntry) : (s.appendTrace e).cause = s.cause := rfl

@[simp] theorem appendTrace_fpc (s : State) (e : TraceEntry) : (s.appendTrace e).fpc = s.fpc := rfl

@[simp] theorem appendTrace_fword (s : State) (e : TraceEntry) : (s.appendTrace e).fword = s.fword := rfl

@[simp] theorem appendTrace_steps (s : State) (e : TraceEntry) : (s.appendTrace e).steps = s.steps := rfl

@[simp] theorem appendTrace_maxSteps (s : State) (e : TraceEntry) : (s.appendTrace e).maxSteps = s.maxSteps := rfl

@[simp] theorem appendTrace_trace (s : State) (e : TraceEntry) : (s.appendTrace e).trace = s.trace ++ [e] := rfl

/-! ### countStep -/

@[simp] theorem countStep_regs (s : State) : s.countStep.regs = s.regs := rfl

@[simp] theorem countStep_dmem (s : State) : s.countStep.dmem = s.dmem := rfl

@[simp] theorem countStep_imem (s : State) : s.countStep.imem = s.imem := rfl

@[simp] theorem countStep_progLen (s : State) : s.countStep.progLen = s.progLen := rfl

@[simp] theorem countStep_pc (s : State) : s.countStep.pc = s.pc := rfl

@[simp] theorem countStep_zf (s : State) : s.countStep.zf = s.zf := rfl

@[simp] theorem countStep_status (s : State) : s.countStep.status = s.status := rfl

@[simp] theorem countStep_cause (s : State) : s.countStep.cause = s.cause := rfl

@[simp] theorem countStep_fpc (s : State) : s.countStep.fpc = s.fpc := rfl

@[simp] theorem countStep_fword (s : State) : s.countStep.fword = s.fword := rfl

@[simp] theorem countStep_steps (s : State) : s.countStep.steps = s.steps + 1 := rfl

@[simp] theorem countStep_maxSteps (s : State) : s.countStep.maxSteps = s.maxSteps := rfl

@[simp] theorem countStep_trace (s : State) : s.countStep.trace = s.trace := rfl

/-! ### bookkeeping -/

@[simp] theorem bookkeeping_regs (s : State) (i : Instr) : (s.bookkeeping i).regs = s.regs := rfl

@[simp] theorem bookkeeping_dmem (s : State) (i : Instr) : (s.bookkeeping i).dmem = s.dmem := rfl

@[simp] theorem bookkeeping_imem (s : State) (i : Instr) : (s.bookkeeping i).imem = s.imem := rfl

@[simp] theorem bookkeeping_progLen (s : State) (i : Instr) : (s.bookkeeping i).progLen = s.progLen := rfl

@[simp] theorem bookkeeping_pc (s : State) (i : Instr) : (s.bookkeeping i).pc = s.pc + 1 := rfl

@[simp] theorem bookkeeping_zf (s : State) (i : Instr) : (s.bookkeeping i).zf = zeroDetect s.regs := rfl

@[simp] theorem bookkeeping_status (s : State) (i : Instr) : (s.bookkeeping i).status = s.status := rfl

@[simp] theorem bookkeeping_cause (s : State) (i : Instr) : (s.bookkeeping i).cause = s.cause := rfl

@[simp] theorem bookkeeping_fpc (s : State) (i : Instr) : (s.bookkeeping i).fpc = s.fpc := rfl

@[simp] theorem bookkeeping_fword (s : State) (i : Instr) : (s.bookkeeping i).fword = s.fword := rfl

@[simp] theorem bookkeeping_steps (s : State) (i : Instr) : (s.bookkeeping i).steps = s.steps := rfl

@[simp] theorem bookkeeping_maxSteps (s : State) (i : Instr) : (s.bookkeeping i).maxSteps = s.maxSteps := rfl

@[simp] theorem bookkeeping_trace (s : State) (i : Instr) : (s.bookkeeping i).trace = s.trace ++ [.exec i s.regs] := rfl

/-! ### commitReg -/

@[simp] theorem commitReg_dmem (s : State) (wr : Option (Reg × Byte)) : (s.commitReg wr).dmem = s.dmem := by cases wr <;> rfl

@[simp] theorem commitReg_imem (s : State) (wr : Option (Reg × Byte)) : (s.commitReg wr).imem = s.imem := by cases wr <;> rfl

@[simp] theorem commitReg_progLen (s : State) (wr : Option (Reg × Byte)) : (s.commitReg wr).progLen = s.progLen := by cases wr <;> rfl

@[simp] theorem commitReg_pc (s : State) (wr : Option (Reg × Byte)) : (s.commitReg wr).pc = s.pc := by cases wr <;> rfl

@[simp] theorem commitReg_zf (s : State) (wr : Option (Reg × Byte)) : (s.commitReg wr).zf = s.zf := by cases wr <;> rfl

@[simp] theorem commitReg_status (s : State) (wr : Option (Reg × Byte)) : (s.commitReg wr).status = s.status := by cases wr <;> rfl

@[simp] theorem commitReg_cause (s : State) (wr : Option (Reg × Byte)) : (s.commitReg wr).cause = s.cause := by cases wr <;> rfl

@[simp] theorem commitReg_fpc (s : State) (wr : Option (Reg × Byte)) : (s.commitReg wr).fpc = s.fpc := by cases wr <;> rfl

@[simp] theorem commitReg_fword (s : State) (wr : Option (Reg × Byte)) : (s.commitReg wr).fword = s.fword := by cases wr <;> rfl

@[simp] theorem commitReg_steps (s : State) (wr : Option (Reg × Byte)) : (s.commitReg wr).steps = s.steps := by cases wr <;> rfl

@[simp] theorem commitReg_maxSteps (s : State) (wr : Option (Reg × Byte)) : (s.commitReg wr).maxSteps = s.maxSteps := by cases wr <;> rfl

@[simp] theorem commitReg_trace (s : State) (wr : Option (Reg × Byte)) : (s.commitReg wr).trace = s.trace := by cases wr <;> rfl

/-! ### commitMem -/

@[simp] theorem commitMem_regs (s : State) (mw : Option (BitVec 6 × Byte)) : (s.commitMem mw).regs = s.regs := by cases mw <;> rfl

@[simp] theorem commitMem_imem (s : State) (mw : Option (BitVec 6 × Byte)) : (s.commitMem mw).imem = s.imem := by cases mw <;> rfl

@[simp] theorem commitMem_progLen (s : State) (mw : Option (BitVec 6 × Byte)) : (s.commitMem mw).progLen = s.progLen := by cases mw <;> rfl

@[simp] theorem commitMem_pc (s : State) (mw : Option (BitVec 6 × Byte)) : (s.commitMem mw).pc = s.pc := by cases mw <;> rfl

@[simp] theorem commitMem_zf (s : State) (mw : Option (BitVec 6 × Byte)) : (s.commitMem mw).zf = s.zf := by cases mw <;> rfl

@[simp] theorem commitMem_status (s : State) (mw : Option (BitVec 6 × Byte)) : (s.commitMem mw).status = s.status := by cases mw <;> rfl

@[simp] theorem commitMem_cause (s : State) (mw : Option (BitVec 6 × Byte)) : (s.commitMem mw).cause = s.cause := by cases mw <;> rfl

@[simp] theorem commitMem_fpc (s : State) (mw : Option (BitVec 6 × Byte)) : (s.commitMem mw).fpc = s.fpc := by cases mw <;> rfl

@[simp] theorem commitMem_fword (s : State) (mw : Option (BitVec 6 × Byte)) : (s.commitMem mw).fword = s.fword := by cases mw <;> rfl

@[simp] theorem commitMem_steps (s : State) (mw : Option (BitVec 6 × Byte)) : (s.commitMem mw).steps = s.steps := by cases mw <;> rfl

@[simp] theorem commitMem_maxSteps (s : State) (mw : Option (BitVec 6 × Byte)) : (s.commitMem mw).maxSteps = s.maxSteps := by cases mw <;> rfl

@[simp] theorem commitMem_trace (s : State) (mw : Option (BitVec 6 × Byte)) : (s.commitMem mw).trace = s.trace := by cases mw <;> rfl

/-! ### commitDivZero -/

@[simp] theorem commitDivZero_regs (s : State) (dz : Bool) : (s.commitDivZero dz).regs = s.regs := by cases dz <;> rfl

@[simp] theorem commitDivZero_dmem (s : State) (dz : Bool) : (s.commitDivZero dz).dmem = s.dmem := by cases dz <;> rfl

@[simp] theorem commitDivZero_imem (s : State) (dz : Bool) : (s.commitDivZero dz).imem = s.imem := by cases dz <;> rfl

@[simp] theorem commitDivZero_progLen (s : State) (dz : Bool) : (s.commitDivZero dz).progLen = s.progLen := by cases dz <;> rfl

@[simp] theorem commitDivZero_pc (s : State) (dz : Bool) : (s.commitDivZero dz).pc = s.pc := by cases dz <;> rfl

@[simp] theorem commitDivZero_zf (s : State) (dz : Bool) : (s.commitDivZero dz).zf = s.zf := by cases dz <;> rfl

@[simp] theorem commitDivZero_status (s : State) (dz : Bool) : (s.commitDivZero dz).status = s.status := by cases dz <;> rfl

@[simp] theorem commitDivZero_cause (s : State) (dz : Bool) : (s.commitDivZero dz).cause = s.cause := by cases dz <;> rfl

@[simp] theorem commitDivZero_fpc (s : State) (dz : Bool) : (s.commitDivZero dz).fpc = s.fpc := by cases dz <;> rfl

@[simp] theorem commitDivZero_fword (s : State) (dz : Bool) : (s.commitDivZero dz).fword = s.fword := by cases dz <;> rfl

@[simp] theorem commitDivZero_steps (s : State) (dz : Bool) : (s.commitDivZero dz).steps = s.steps := by cases dz <;> rfl

@[simp] theorem commitDivZero_maxSteps (s : State) (dz : Bool) : (s.commitDivZero dz).maxSteps = s.maxSteps := by cases dz <;> rfl

/-! ### The fields the optional writes change -/

@[simp] theorem commitReg_none (s : State) : s.commitReg none = s := rfl

@[simp] theorem commitReg_some (s : State) (r : Reg) (v : Byte) :
    s.commitReg (some (r, v)) = s.writeReg r v := rfl

@[simp] theorem commitMem_none (s : State) : s.commitMem none = s := rfl

@[simp] theorem commitMem_some_dmem (s : State) (a : BitVec 6) (v : Byte) :
    (s.commitMem (some (a, v))).dmem = s.dmem.write a.toNat v := rfl

@[simp] theorem commitDivZero_false (s : State) : s.commitDivZero false = s := rfl

@[simp] theorem commitDivZero_true (s : State) : s.commitDivZero true = s.appendTrace .divByZero := rfl

/-! ### Reading a register after an update -/

theorem readReg_eq (s : State) (r : Reg) : s.readReg r = s.regs[r] := rfl

theorem readReg_congr (s t : State) (h : t.regs = s.regs) (r : Reg) : t.readReg r = s.readReg r := by
  simp [readReg_eq, h]

@[simp] theorem readReg_writeReg_same (s : State) (r : Reg) (v : Byte) :
    (s.writeReg r v).readReg r = v := by
  simp [readReg_eq]

theorem readReg_writeReg_ne (s : State) (r q : Reg) (v : Byte) (h : q ≠ r) :
    (s.writeReg r v).readReg q = s.readReg q := by
  have h' : r.val ≠ q.val := fun e => h (Fin.ext e.symm)
  simp [readReg_eq, Vector.getElem_set_ne, h']

@[simp] theorem readReg_recomputeZf (s : State) (q : Reg) :
    s.recomputeZf.readReg q = s.readReg q := rfl

@[simp] theorem readReg_endRun (s : State) (q : Reg) :
    s.endRun.readReg q = s.readReg q := rfl

@[simp] theorem readReg_budgetRun (s : State) (q : Reg) :
    s.budgetRun.readReg q = s.readReg q := rfl

@[simp] theorem readReg_takeFault (c : Cause) (w : Word) (s : State) (q : Reg) :
    (takeFault c w s).readReg q = s.readReg q := rfl

@[simp] theorem readReg_appendTrace (s : State) (e : TraceEntry) (q : Reg) :
    (s.appendTrace e).readReg q = s.readReg q := rfl

@[simp] theorem readReg_countStep (s : State) (q : Reg) :
    s.countStep.readReg q = s.readReg q := rfl

@[simp] theorem readReg_bookkeeping (s : State) (i : Instr) (q : Reg) :
    (s.bookkeeping i).readReg q = s.readReg q := rfl

@[simp] theorem readReg_commitMem (s : State) (mw : Option (BitVec 6 × Byte)) (q : Reg) :
    (s.commitMem mw).readReg q = s.readReg q := by cases mw <;> rfl

@[simp] theorem readReg_commitDivZero (s : State) (dz : Bool) (q : Reg) :
    (s.commitDivZero dz).readReg q = s.readReg q := by cases dz <;> rfl

/-- The zero detector is on exactly when some register holds 0 (R18, R23). -/
theorem zeroDetect_eq_true (s : State) : zeroDetect s.regs = true ↔ ∃ r : Reg, s.readReg r = 0 := by
  simp [zeroDetect, readReg_eq, Fin.exists_fin_succ, or_assoc]

end Sys2Proof.Machine
end

