-- ==== Sys2Proof/Laws/Ops.lean ====
section
/-! SUPPORT. What each shared operation can do, said once: fault entry, the commit of every kind of effect, the
instructions as effects, and one step. -/

namespace Sys2Proof.Machine

/-! ### What is kept, and by what -/

theorem RegsKept.refl (s : State) : RegsKept s s := fun _ => rfl

theorem MemKept.refl (s : State) : MemKept s s := fun _ => rfl

theorem regsKept_of_eq {s t : State} (h : t.regs = s.regs) : RegsKept s t := readReg_congr s t h

theorem memKept_of_eq {s t : State} (h : t.dmem = s.dmem) : MemKept s t := fun a => by rw [h]

/-- Fault entry leaves the fault record, and everything else as it was (R126). -/
theorem takeFault_spec (c : Cause) (w : Word) (s : State) : FaultTaken c w s (takeFault c w s) :=
  ⟨rfl, rfl, rfl, rfl, ⟨fun _ => rfl, fun _ => rfl, rfl, rfl, rfl, rfl, ⟨rfl, rfl, rfl⟩⟩⟩

/-! ### The commit of each kind of effect (R94) -/

/-- A bookkeeping effect: the optional writes and the marker, then the bookkeeping (R94, R95). -/
theorem commit_seq_bookkept (i : Instr) (wr : Option (Reg × Byte)) (mw : Option (BitVec 6 × Byte))
    (dz : Bool) (s : State) :
    Bookkept i (if dz then [.divByZero] else []) s (commit i (.seq wr mw dz) s) := by
  refine ⟨?_, ?_, ?_, ?_, ⟨?_, ?_, ?_, ?_⟩, ⟨?_, ?_, ?_⟩⟩ <;> try simp [commit]
  · simpa using zeroDetect_eq_true (s.commitReg wr)
  · cases dz <;> simp

/-- The registers after a bookkeeping effect. -/
theorem commit_seq_readReg (i : Instr) (wr : Option (Reg × Byte)) (mw : Option (BitVec 6 × Byte))
    (dz : Bool) (s : State) (q : Reg) :
    (commit i (.seq wr mw dz) s).readReg q = (s.commitReg wr).readReg q :=
  readReg_congr _ _ (by simp [commit]) q

/-- Data memory after a bookkeeping effect. -/
theorem commit_seq_dmem (i : Instr) (wr : Option (Reg × Byte)) (mw : Option (BitVec 6 × Byte))
    (dz : Bool) (s : State) : (commit i (.seq wr mw dz) s).dmem = (s.commitMem mw).dmem := by
  cases mw <;> simp [commit, State.commitMem]

/-- An instruction that writes one register. -/
theorem perform_writesReg (i : Instr) (r : Reg) (v : Byte) (s : State) :
    ∃ t, perform i (writesReg r v) s = .next t ∧ t.readReg r = v ∧ RegsKeptBut r s t ∧
      MemKept s t ∧ Bookkept i [] s t := by
  refine ⟨_, rfl, ?_, fun q hq => ?_, fun a => ?_, commit_seq_bookkept i _ none false s⟩
  · rw [writesReg, commit_seq_readReg]; simp
  · rw [writesReg, commit_seq_readReg]; simp [readReg_writeReg_ne s r q v hq]
  · rw [writesReg, commit_seq_dmem]; simp

/-- An instruction that writes one cell. -/
theorem perform_writesCell (i : Instr) (c : BitVec 6) (v : Byte) (s : State) :
    ∃ t, perform i (.seq none (some (c, v)) false) s = .next t ∧ t.dmem.read c.toNat = v ∧
      MemKeptBut c.toNat s t ∧ RegsKept s t ∧ Bookkept i [] s t := by
  refine ⟨_, rfl, ?_, fun a ha => ?_, fun q => ?_, commit_seq_bookkept i none _ false s⟩
  · rw [commit_seq_dmem]; simp
  · rw [commit_seq_dmem]; simp [Memory.read_write_ne, ha]
  · rw [commit_seq_readReg]; simp

/-- An instruction that writes nothing, with or without the division-by-zero marker. -/
theorem perform_noWrite (i : Instr) (dz : Bool) (s : State) :
    ∃ t, perform i (.seq none none dz) s = .next t ∧ RegsKept s t ∧ MemKept s t ∧
      Bookkept i (if dz then [.divByZero] else []) s t := by
  refine ⟨_, rfl, fun q => ?_, fun a => ?_, commit_seq_bookkept i none none dz s⟩
  · rw [commit_seq_readReg]; simp
  · rw [commit_seq_dmem]; simp

/-- A taken jump (R102). -/
theorem perform_jump (i : Instr) (p : Byte) (s : State) :
    ∃ t, perform i (.jump p) s = .next t ∧ Jumped p s t :=
  ⟨_, rfl, rfl, rfl, rfl, rfl, fun _ => rfl, fun _ => rfl, ⟨rfl, rfl, rfl, rfl⟩, ⟨rfl, rfl, rfl⟩⟩

/-- An instruction's own fault (R126). -/
theorem perform_fault (i : Instr) (c : Cause) (s : State) :
    ∃ t, perform i (.fault c) s = .next t ∧ FaultTaken c (encode i) s t :=
  ⟨_, rfl, takeFault_spec c (encode i) s⟩

/-! ### Launch (R144) -/

/-- A program is launched exactly when it has at most 255 words. -/
theorem programWellFormed_iff (prog : List Word) : programWellFormed prog = true ↔ prog.length ≤ 255 :=
  decide_eq_true_iff

/-- What a launch gives, where it gives a state. -/
theorem launch_eq_some {prog : List Word} {m : Nat} {s : State} :
    State.launch prog m = some s ↔ prog.length ≤ 255 ∧
      s = { State.reset with
        imem := loadProgram prog, progLen := BitVec.ofNat 8 prog.length, maxSteps := m } := by
  rw [← programWellFormed_iff, State.launch]
  split_ifs with h <;> simp [h, eq_comm]

/-! ### Instructions as effects (R93) -/

/-- Every instruction commits its effect: every instruction has a next state in every state. -/
theorem exec_eq (i : Instr) (s : State) : exec i s = .next (commit i (effectOf i s) s) := by
  cases i <;> rfl

/-- The next state of an instruction is the commit of its effect. -/
theorem exec_next {i : Instr} {s t : State} (h : exec i s = .next t) : t = commit i (effectOf i s) s := by
  rw [exec_eq] at h; exact (Host.Outcome.next.inj h).symm

/-- `dm_rdata` is always the addressed cell's value before the instruction (R44). -/
@[simp] theorem dmemPort_rdata (i : Instr) (s : State) :
    (dmemPort i s).rdata = s.dmem.read (dmemPort i s).addr.toNat := by
  cases i <;> rfl

/-- Only a STORE to a cell that exists enables a write, and only a LOAD of one a read (R44). -/
theorem dmemPort_enables (i : Instr) (s : State) :
    ((dmemPort i s).we = true ↔ ∃ r a, i = .store r a ∧ (dataAddr a).isSome = true) ∧
    ((dmemPort i s).re = true ↔ ∃ d a, i = .load d a ∧ (dataAddr a).isSome = true) := by
  cases i <;> simp [dmemPort, State.dmemPortAt]

/-- The address check (R43): at most 63, and the cell address has the same value. -/
theorem dataAddr_eq_some {a : Byte} {c : BitVec 6} (h : dataAddr a = some c) :
    a.toNat ≤ 63 ∧ c.toNat = a.toNat := by
  unfold dataAddr at h
  split_ifs at h with ha
  cases h
  refine ⟨ha, ?_⟩
  simp [BitVec.extractLsb'_toNat]
  omega

theorem dataAddr_of_le {a : Byte} (h : a.toNat ≤ 63) : dataAddr a = some (a.extractLsb' 0 6) := by
  simp [dataAddr, h]

theorem dataAddr_of_gt {a : Byte} (h : 64 ≤ a.toNat) : dataAddr a = none := by
  simp [dataAddr]; omega

/-- A jump's effect goes to a target below `N`, or faults (R113). -/
theorem jumpTo_cases (p n : Byte) :
    (p.toNat < n.toNat ∧ jumpTo p n = .jump p) ∨ (n.toNat ≤ p.toNat ∧ jumpTo p n = .fault .jumpRange) := by
  by_cases h : p.toNat < n.toNat
  · exact .inl ⟨h, by simp [jumpTo, targetInRange, h]⟩
  · exact .inr ⟨by omega, by simp [jumpTo, targetInRange, h]⟩

/-- A LOAD's effect: the cell into the register, or MEM_RANGE (R106). -/
theorem effectLoad_cases (d : Reg) (a : Byte) (s : State) :
    (a.toNat ≤ 63 ∧ effectLoad d a s = writesReg d (s.dmem.read a.toNat)) ∨
      (64 ≤ a.toNat ∧ effectLoad d a s = .fault .memRange) := by
  by_cases h : a.toNat ≤ 63
  · have := (dataAddr_eq_some (dataAddr_of_le h)).2
    exact .inl ⟨h, by rw [effectLoad, dataAddr_of_le h]; simp only [this]⟩
  · exact .inr ⟨by omega, by rw [effectLoad, dataAddr_of_gt (by omega)]⟩

/-- A STORE's effect: the register into the cell, or MEM_RANGE (R107). -/
theorem effectStore_cases (r : Reg) (a : Byte) (s : State) :
    (a.toNat ≤ 63 ∧ effectStore r a s = .seq none (some (a.extractLsb' 0 6, s.readReg r)) false) ∨
      (64 ≤ a.toNat ∧ effectStore r a s = .fault .memRange) := by
  by_cases h : a.toNat ≤ 63
  · exact .inl ⟨h, by rw [effectStore, dataAddr_of_le h]⟩
  · exact .inr ⟨by omega, by rw [effectStore, dataAddr_of_gt (by omega)]⟩

/-- A jump effect is a JUMP's or a taken JUMPZ's, and its target is in range. -/
theorem effectOf_eq_jump {i : Instr} {s : State} {p : Byte} (h : effectOf i s = .jump p) :
    p.toNat < s.progLen.toNat ∧ (i = .jump p ∨ (i = .jumpz p ∧ s.zf = true)) := by
  cases i with
  | jump q =>
    simp only [effectOf, effectJump] at h
    rcases jumpTo_cases q s.progLen with ⟨hq, e⟩ | ⟨hq, e⟩ <;> rw [e] at h <;> cases h
    exact ⟨hq, .inl rfl⟩
  | jumpz q =>
    simp only [effectOf, effectJumpz] at h
    split_ifs at h with hz
    · rcases jumpTo_cases q s.progLen with ⟨hq, e⟩ | ⟨hq, e⟩ <;> rw [e] at h <;> cases h
      exact ⟨hq, .inr ⟨rfl, hz⟩⟩
    · cases h
  | load d a => rcases effectLoad_cases d a s with ⟨-, e⟩ | ⟨-, e⟩ <;> simp [effectOf, e, writesReg] at h
  | store r a => rcases effectStore_cases r a s with ⟨-, e⟩ | ⟨-, e⟩ <;> simp [effectOf, e] at h
  | div a b => simp only [effectOf, effectDiv] at h; split_ifs at h <;> cases h
  | mov => cases h
  | add => cases h
  | sub => cases h
  | mul => cases h
  | and => cases h
  | or => cases h
  | xor => cases h
  | not => cases h
  | hlt => cases h

/-- A halt effect is HLT's. -/
theorem effectOf_eq_halt {i : Instr} {s : State} (h : effectOf i s = .halt) : i = .hlt := by
  cases i with
  | jump q =>
    simp only [effectOf, effectJump] at h
    rcases jumpTo_cases q s.progLen with ⟨-, e⟩ | ⟨-, e⟩ <;> rw [e] at h <;> cases h
  | jumpz q =>
    simp only [effectOf, effectJumpz] at h
    split_ifs at h
    · rcases jumpTo_cases q s.progLen with ⟨-, e⟩ | ⟨-, e⟩ <;> rw [e] at h <;> cases h
    · cases h
  | load d a => rcases effectLoad_cases d a s with ⟨-, e⟩ | ⟨-, e⟩ <;> simp [effectOf, e, writesReg] at h
  | store r a => rcases effectStore_cases r a s with ⟨-, e⟩ | ⟨-, e⟩ <;> simp [effectOf, e] at h
  | div a b => simp only [effectOf, effectDiv] at h; split_ifs at h <;> cases h
  | hlt => rfl
  | mov => cases h
  | add => cases h
  | sub => cases h
  | mul => cases h
  | and => cases h
  | or => cases h
  | xor => cases h
  | not => cases h

/-- A fault effect is MEM_RANGE of a LOAD or STORE, or JUMP_RANGE of a JUMP or a taken JUMPZ (R125). -/
theorem effectOf_eq_fault {i : Instr} {s : State} {c : Cause} (h : effectOf i s = .fault c) :
    (c = .memRange ∧ ∃ r a, (i = .load r a ∨ i = .store r a) ∧ 64 ≤ a.toNat) ∨
      (c = .jumpRange ∧ ∃ p, (i = .jump p ∨ (i = .jumpz p ∧ s.zf = true)) ∧
        s.progLen.toNat ≤ p.toNat) := by
  cases i with
  | jump q =>
    simp only [effectOf, effectJump] at h
    rcases jumpTo_cases q s.progLen with ⟨hq, e⟩ | ⟨hq, e⟩ <;> rw [e] at h <;> cases h
    exact .inr ⟨rfl, q, .inl rfl, hq⟩
  | jumpz q =>
    simp only [effectOf, effectJumpz] at h
    split_ifs at h with hz
    · rcases jumpTo_cases q s.progLen with ⟨hq, e⟩ | ⟨hq, e⟩ <;> rw [e] at h <;> cases h
      exact .inr ⟨rfl, q, .inr ⟨rfl, hz⟩, hq⟩
    · cases h
  | load d a =>
    rcases effectLoad_cases d a s with ⟨ha, e⟩ | ⟨ha, e⟩ <;> simp [effectOf, e, writesReg] at h
    exact .inl ⟨h.symm, d, a, .inl rfl, ha⟩
  | store r a =>
    rcases effectStore_cases r a s with ⟨ha, e⟩ | ⟨ha, e⟩ <;> simp [effectOf, e] at h
    exact .inl ⟨h.symm, r, a, .inr rfl, ha⟩
  | div a b => simp only [effectOf, effectDiv] at h; split_ifs at h <;> cases h
  | hlt => cases h
  | mov => cases h
  | add => cases h
  | sub => cases h
  | mul => cases h
  | and => cases h
  | or => cases h
  | xor => cases h
  | not => cases h

/-- A bookkeeping effect: the register it writes is the one RA names, the cell it writes is a STORE's, a
division by zero is a DIV's (R17, R42, R112), and it is no JUMP's, taken JUMPZ's or HLT's (R95). -/
theorem effectOf_eq_seq {i : Instr} {s : State} {wr : Option (Reg × Byte)}
    {mw : Option (BitVec 6 × Byte)} {dz : Bool} (h : effectOf i s = .seq wr mw dz) :
    (∀ r v, wr = some (r, v) → writable i = some r) ∧
      (∀ c v, mw = some (c, v) → ∃ r a, i = .store r a ∧ dataAddr a = some c ∧ v = s.readReg r) ∧
      (dz = true ↔ ∃ a b, i = .div a b ∧ s.readReg b = 0) ∧
      (∀ p, i ≠ .jump p) ∧ (∀ p, i = .jumpz p → s.zf = false) ∧ i ≠ .hlt := by
  cases i with
  | jump q =>
    simp only [effectOf, effectJump] at h
    rcases jumpTo_cases q s.progLen with ⟨-, e⟩ | ⟨-, e⟩ <;> rw [e] at h <;> cases h
  | jumpz q =>
    simp only [effectOf, effectJumpz] at h
    split_ifs at h with hz
    · rcases jumpTo_cases q s.progLen with ⟨-, e⟩ | ⟨-, e⟩ <;> rw [e] at h <;> cases h
    · cases h; simpa using hz
  | hlt => cases h
  | load d a =>
    rcases effectLoad_cases d a s with ⟨-, e⟩ | ⟨-, e⟩ <;> rw [effectOf, e] at h <;> cases h
    simp [writable]
  | store r a =>
    rcases effectStore_cases r a s with ⟨ha, e⟩ | ⟨-, e⟩ <;> rw [effectOf, e] at h <;> cases h
    refine ⟨by simp, fun c v hc => ⟨r, a, rfl, ?_, ?_⟩, by simp, by simp, by simp, by simp⟩
    · rw [dataAddr_of_le ha]; simp_all
    · simp_all
  | div a b =>
    simp only [effectOf, effectDiv] at h
    split_ifs at h with hb <;> cases h
    · simpa [writable] using hb
    · simpa [writable] using hb
  | mov => cases h; simp [writable]
  | add => cases h; simp [writable]
  | sub => cases h; simp [writable]
  | mul => cases h; simp [writable]
  | and => cases h; simp [writable]
  | or => cases h; simp [writable]
  | xor => cases h; simp [writable]
  | not => cases h; simp [writable]

/-! ### One step (R88) -/

/-- Everything a step can do, if it answers a next state. -/
theorem step_cases {s t : State} (h : step s = .next t) :
    s.status = .running ∧
      ((s.pc = s.progLen ∧ t = s.endRun) ∨
       (s.pc ≠ s.progLen ∧ s.steps = s.maxSteps ∧ t = s.budgetRun) ∨
       (AboutToFetch s ∧ ∃ c, decode (s.imem.read s.pc.toNat) = .illegal c ∧
          t = takeFault c (s.imem.read s.pc.toNat) s) ∨
       (AboutToFetch s ∧ ∃ i, decode (s.imem.read s.pc.toNat) = .instr i ∧
          t = commit i (effectOf i s) s)) := by
  unfold step at h
  cases hs : s.status <;> simp only [hs] at h <;> try cases h
  refine ⟨rfl, ?_⟩
  by_cases he : s.pc = s.progLen
  · simp [State.atEnd, he] at h; exact .inl ⟨he, h.symm⟩
  · have he' : s.atEnd = false := by simpa [State.atEnd] using he
    rw [he'] at h
    by_cases hb : s.steps = s.maxSteps
    · simp [State.budgetSpent, hb] at h; exact .inr (.inl ⟨he, hb, h.symm⟩)
    · have hb' : s.budgetSpent = false := by simpa [State.budgetSpent] using hb
      by_cases hp : s.pc.toNat < s.progLen.toNat
      · have ha : AboutToFetch s := ⟨hs, hp, hb⟩
        simp only [hb', State.fetch, if_pos hp, runWord] at h
        cases hd : decode (s.imem.read s.pc.toNat) with
        | illegal c => simp [hd] at h; exact .inr (.inr (.inl ⟨ha, c, rfl, h.symm⟩))
        | instr i => simp [hd] at h; exact .inr (.inr (.inr ⟨ha, i, rfl, exec_next h⟩))
      · simp [hb', State.fetch, if_neg hp] at h

/-- A step about to fetch runs the word at `pc`. -/
theorem step_of_aboutToFetch {s : State} (h : AboutToFetch s) :
    step s = runWord (s.imem.read s.pc.toNat) s := by
  obtain ⟨hs, hp, hb⟩ := h
  have he : s.pc ≠ s.progLen := fun e => by rw [e] at hp; omega
  simp [step, hs, State.atEnd, he, State.budgetSpent, hb, State.fetch, hp]

end Sys2Proof.Machine
end

