-- ==== Sys2Proof/Laws/PerInstr.lean ====
section
/-! SUPPORT. Statements about every instruction as syntax, one lemma per constructor (LAWS.json).
EncodedFields: the fields of an instruction's word are those of the encoder's table (30_encoding R87), and its
must-be-zero fields are zero (R67). -/

namespace Sys2Proof.Laws

/-- The `IMM8` field the encoder's table gives an instruction (R87). -/
def immOf : Instr → Byte
  | .mov _ v | .load _ v | .store _ v | .jump v | .jumpz v => v
  | .add _ b | .sub _ b | .mul _ b | .div _ b | .and _ b | .or _ b | .xor _ b => regImm b
  | .not _ | .hlt => 0

/-- The `RA` field the encoder's table gives an instruction (R87). -/
def raOf : Instr → BitVec 3
  | .mov r _ | .load r _ | .store r _ => regField r
  | .add r _ | .sub r _ | .mul r _ | .div r _ | .and r _ | .or r _ | .xor r _ => regField r
  | .not r => regField r
  | .jump _ | .jumpz _ | .hlt => 0

/-- The fields of an instruction's word (R87), `Z = 0` (R67), and the must-be-zero fields of its format. -/
def EncodedFields.Statement (i : Instr) : Prop :=
  fieldOP (encode i) = i.opcode.code ∧ fieldRA (encode i) = raOf i ∧ fieldZ (encode i) = 0 ∧
    fieldIMM8 (encode i) = immOf i ∧ (i.opcode.format = .rr → fieldHI5 (encode i) = 0)

theorem EncodedFields.mov (rd : Reg) (lit : Byte) : EncodedFields.Statement (.mov rd lit) := by
  refine ⟨?_, ?_, ?_, ?_, fun h => ?_⟩ <;>
    simp_all [encode, raOf, immOf, Instr.opcode, Opcode.format]

theorem EncodedFields.load (rd : Reg) (addr : Byte) : EncodedFields.Statement (.load rd addr) := by
  refine ⟨?_, ?_, ?_, ?_, fun h => ?_⟩ <;>
    simp_all [encode, raOf, immOf, Instr.opcode, Opcode.format]

theorem EncodedFields.store (rs : Reg) (addr : Byte) : EncodedFields.Statement (.store rs addr) := by
  refine ⟨?_, ?_, ?_, ?_, fun h => ?_⟩ <;>
    simp_all [encode, raOf, immOf, Instr.opcode, Opcode.format]

theorem EncodedFields.add (r1 r2 : Reg) : EncodedFields.Statement (.add r1 r2) := by
  refine ⟨?_, ?_, ?_, ?_, fun h => ?_⟩ <;>
    simp_all [encode, raOf, immOf, Instr.opcode, Opcode.format, fieldHI5_eq]

theorem EncodedFields.sub (r1 r2 : Reg) : EncodedFields.Statement (.sub r1 r2) := by
  refine ⟨?_, ?_, ?_, ?_, fun h => ?_⟩ <;>
    simp_all [encode, raOf, immOf, Instr.opcode, Opcode.format, fieldHI5_eq]

theorem EncodedFields.mul (r1 r2 : Reg) : EncodedFields.Statement (.mul r1 r2) := by
  refine ⟨?_, ?_, ?_, ?_, fun h => ?_⟩ <;>
    simp_all [encode, raOf, immOf, Instr.opcode, Opcode.format, fieldHI5_eq]

theorem EncodedFields.div (r1 r2 : Reg) : EncodedFields.Statement (.div r1 r2) := by
  refine ⟨?_, ?_, ?_, ?_, fun h => ?_⟩ <;>
    simp_all [encode, raOf, immOf, Instr.opcode, Opcode.format, fieldHI5_eq]

theorem EncodedFields.jump (t : Byte) : EncodedFields.Statement (.jump t) := by
  refine ⟨?_, ?_, ?_, ?_, fun h => ?_⟩ <;>
    simp_all [encode, raOf, immOf, Instr.opcode, Opcode.format]

theorem EncodedFields.jumpz (t : Byte) : EncodedFields.Statement (.jumpz t) := by
  refine ⟨?_, ?_, ?_, ?_, fun h => ?_⟩ <;>
    simp_all [encode, raOf, immOf, Instr.opcode, Opcode.format]

theorem EncodedFields.and (r1 r2 : Reg) : EncodedFields.Statement (.and r1 r2) := by
  refine ⟨?_, ?_, ?_, ?_, fun h => ?_⟩ <;>
    simp_all [encode, raOf, immOf, Instr.opcode, Opcode.format, fieldHI5_eq]

theorem EncodedFields.or (r1 r2 : Reg) : EncodedFields.Statement (.or r1 r2) := by
  refine ⟨?_, ?_, ?_, ?_, fun h => ?_⟩ <;>
    simp_all [encode, raOf, immOf, Instr.opcode, Opcode.format, fieldHI5_eq]

theorem EncodedFields.not (r1 : Reg) : EncodedFields.Statement (.not r1) := by
  refine ⟨?_, ?_, ?_, ?_, fun h => ?_⟩ <;>
    simp_all [encode, raOf, immOf, Instr.opcode, Opcode.format]

theorem EncodedFields.xor (r1 r2 : Reg) : EncodedFields.Statement (.xor r1 r2) := by
  refine ⟨?_, ?_, ?_, ?_, fun h => ?_⟩ <;>
    simp_all [encode, raOf, immOf, Instr.opcode, Opcode.format, fieldHI5_eq]

theorem EncodedFields.hlt : EncodedFields.Statement .hlt := by
  refine ⟨?_, ?_, ?_, ?_, fun h => ?_⟩ <;>
    simp_all [encode, raOf, immOf, Instr.opcode, Opcode.format]

end Sys2Proof.Laws
end

