-- ==== Sys2Proof/Tests/Slice0.lean ====
section
/-! SUPPORT. The model's own tests. Expected results come from the spec: the encodings of 30_encoding R63, R70
and R87, the vectors of 95_test_vectors (named V-…, A…), the examples of the instruction rules. The last part
shows, for each statement of Obligations.lean that has hypotheses, states and operands that meet them. -/

namespace Sys2Proof.Tests

open Sys2Proof Sys2Proof.Machine

/-- The machine has a next state, and it passes the check. -/
def leads (o : Host.Outcome State Fault Refusal) (p : State → Bool) : Bool :=
  match o with
  | .next t => p t
  | .fault _ => false
  | .refused _ => false

/-- The word `w` at `pc` in a program of length `n`. -/
def st (w : Word) (regs : RegFile) (zf : Bool) (pc n : Byte) : State :=
  { State.reset with
    regs := regs, zf := zf, pc := pc, progLen := n, maxSteps := 9, imem := [(pc.toNat, w)] }

/-- One step ends in a fault with this record. -/
def faultsWith (s : State) (c : Cause) (w : Word) : Bool :=
  leads (step s) (fun t => t.status == .fault && t.cause == some c && t.fpc == s.pc && t.fword == w &&
    t.regs == s.regs && t.dmem == s.dmem && t.zf == s.zf && t.trace == s.trace && t.steps == s.steps)

/-! ### Well-formedness: each check refuses an ill-formed term (R69, R58, R31) -/

theorem test_wf_accepts_mov : RawRecord.wellFormed ⟨.mov, [5, 255]⟩ = true := by decide
theorem test_wf_missing_operand : RawRecord.wellFormed ⟨.mov, [0]⟩ = false := by decide
theorem test_wf_extra_operand : RawRecord.wellFormed ⟨.hlt, [0]⟩ = false := by decide
theorem test_wf_register_six : RawRecord.wellFormed ⟨.not, [6]⟩ = false := by decide
theorem test_wf_second_register_negative : RawRecord.wellFormed ⟨.add, [0, -1]⟩ = false := by decide
theorem test_wf_literal_256 : RawRecord.wellFormed ⟨.mov, [0, 256]⟩ = false := by decide
theorem test_wf_target_negative : RawRecord.wellFormed ⟨.jump, [-1]⟩ = false := by decide
theorem test_wf_ill_formed_has_no_instr : RawRecord.toInstr ⟨.load, [6, 0]⟩ = none := by decide
theorem test_wf_program_255 : programWellFormed (List.replicate 255 0) = true :=
  (programWellFormed_iff _).2 (List.length_replicate ..).le
theorem test_wf_program_256 : programWellFormed (List.replicate 256 0) = false := by
  rw [programWellFormed, List.length_replicate]; decide
theorem test_reset_memories_wf : State.reset.dmem.wf ∧ State.reset.imem.wf := by decide
theorem test_memory_unsorted_refused : ¬ Memory.wf [(5, 1), (3, 1)] := by decide
theorem test_memory_zero_entry_refused : ¬ Memory.wf [(5, 0)] := by decide
theorem test_memory_cell_64_refused : ¬ Memory.wf [(64, 1)] := by decide

/-! ### Decoding: words written out from the encodings of R63 -/

theorem test_decode_mov : decode 0b0001_101_0_10000001 = .instr (.mov 5 129) := by decide
theorem test_decode_load : decode 0b0010_001_0_00111111 = .instr (.load 1 63) := by decide
theorem test_decode_store : decode 0b0011_100_0_01000000 = .instr (.store 4 64) := by decide
theorem test_decode_add : decode 0b0100_001_0_00000_100 = .instr (.add 1 4) := by decide
theorem test_decode_sub : decode 0b0101_010_0_00000_101 = .instr (.sub 2 5) := by decide
theorem test_decode_mul : decode 0b0110_011_0_00000_000 = .instr (.mul 3 0) := by decide
theorem test_decode_div : decode 0b0111_101_0_00000_001 = .instr (.div 5 1) := by decide
theorem test_decode_jump : decode 0b1000_000_0_10000110 = .instr (.jump 134) := by decide
theorem test_decode_jumpz : decode 0b1001_000_0_00001001 = .instr (.jumpz 9) := by decide
theorem test_decode_and : decode 0b1010_000_0_00000_010 = .instr (.and 0 2) := by decide
theorem test_decode_or : decode 0b1011_001_0_00000_010 = .instr (.or 1 2) := by decide
theorem test_decode_not : decode 0b1100_101_0_00000000 = .instr (.not 5) := by decide
theorem test_decode_xor : decode 0b1101_001_0_00000_000 = .instr (.xor 1 0) := by decide
theorem test_decode_hlt : decode 0b1111_000_0_00000000 = .instr .hlt := by decide

/-- V-DEC, the illegal words. -/
theorem test_decode_illegal :
    [0x0000, 0xE000, 0xEFFF].map decode = List.replicate 3 (.illegal .illegalOpcode) ∧
    [0x1C00, 0x1E05, 0x1100, 0x4008, 0x4006, 0x8200, 0x8100, 0xC001, 0xF001, 0xF200, 0xFFFF, 0x2B3F,
      0xD5FF].map decode = List.replicate 13 (.illegal .illegalOperand) := by decide

/-- R87, the encoder's examples. -/
theorem test_encode :
    [.mov 1 3, .add 0 1, .store 0 63, .jump 6, .hlt].map encode =
      [0x1203, 0x4001, 0x303F, 0x8006, 0xF000] := by decide

/-- R47: most significant byte first. -/
theorem test_byte_image :
    imageOfWords [0x1203, 0xF000] = [0x12, 0x03, 0xF0, 0x00] ∧
    decodeBytes [0x12, 0x03, 0xF0] = some (.instr (.mov 1 3), [0xF0]) := by decide

/-- The host's two hooks: the decoder's answer, and the very next step from reset. -/
theorem test_host_hooks :
    decodeTableWord 16 0x1005 = some (.mov 0 5) ∧ decodeTableWord 16 0xE000 = none ∧
    leads (step (State.reset.withFetchWord 16 0x1005)) (fun t => t.regs == #v[5, 0, 0, 0, 0, 0] &&
      t.pc == 1) = true := by decide

/-! ### One step of each instruction (95_test_vectors) -/

/-- V-MOV: from reset; `zf` is 1 because the other registers hold 0. -/
theorem test_mov : leads (step (st 0x1005 #v[0, 0, 0, 0, 0, 0] false 0 4)) (fun t =>
    t.regs == #v[5, 0, 0, 0, 0, 0] && t.zf && t.pc == 1 && t.steps == 1 &&
      t.trace == [.exec (.mov 0 5) #v[5, 0, 0, 0, 0, 0]]) = true := by decide

/-- V-LOAD. -/
theorem test_load : leads (step { st 0x223F #v[1, 2, 3, 4, 5, 6] false 0 4 with dmem := [(63, 200)] })
    (fun t => t.regs == #v[1, 200, 3, 4, 5, 6] && t.dmem == [(63, 200)] && !t.zf) = true := by decide

/-- V-LOAD: address 64. -/
theorem test_load_64 : faultsWith (st 0x2240 #v[0, 9, 0, 0, 0, 0] false 4 9) .memRange 0x2240 = true := by
  decide

/-- V-STORE. -/
theorem test_store : leads (step (st 0x303F #v[200, 0, 0, 0, 0, 0] false 0 4)) (fun t =>
    t.dmem == [(63, 200)] && t.regs == #v[200, 0, 0, 0, 0, 0] && t.zf && t.pc == 1) = true := by decide

/-- A store of 0 over a cell leaves the canonical form (R44). -/
theorem test_store_zero : leads (step { st 0x3A05 #v[1, 1, 1, 1, 1, 0] true 0 4 with
    dmem := [(4, 7), (5, 8), (6, 9)] }) (fun t => t.dmem == [(4, 7), (6, 9)]) = true := by decide

/-- V-ADD: 255 + 1. -/
theorem test_add : leads (step (st 0x4001 #v[255, 1, 1, 1, 1, 1] false 0 4)) (fun t =>
    t.regs == #v[0, 1, 1, 1, 1, 1] && t.zf) = true := by decide

/-- V-SUB: 3 - 5. -/
theorem test_sub : leads (step (st 0x5001 #v[3, 5, 1, 1, 1, 1] true 0 4)) (fun t =>
    t.regs == #v[254, 5, 1, 1, 1, 1] && !t.zf) = true := by decide

/-- V-MUL: 20 * 13. -/
theorem test_mul : leads (step (st 0x6403 #v[0, 0, 20, 13, 0, 0] false 0 4)) (fun t =>
    t.regs == #v[0, 0, 4, 13, 0, 0]) = true := by decide

/-- V-DIV: 200 / 7. -/
theorem test_div : leads (step (st 0x7001 #v[200, 7, 0, 0, 0, 0] false 0 4)) (fun t =>
    t.regs == #v[28, 7, 0, 0, 0, 0]) = true := by decide

/-- V-DIV: 5 / 0. -/
theorem test_div_by_zero : leads (step (st 0x7200 #v[0, 5, 1, 1, 1, 1] false 2 4)) (fun t =>
    t.regs == #v[0, 5, 1, 1, 1, 1] && t.zf && t.pc == 3 && t.status == .running &&
      t.trace == [.divByZero, .exec (.div 1 0) #v[0, 5, 1, 1, 1, 1]]) = true := by decide

/-- V-JMP. -/
theorem test_jump : leads (step (st 0x8006 #v[0, 0, 0, 0, 0, 0] false 8 10)) (fun t =>
    t.pc == 6 && !t.zf && t.trace == [] && t.steps == 1) = true := by decide

/-- V-JMP: target = N. -/
theorem test_jump_to_length :
    faultsWith (st 0x8005 #v[0, 0, 0, 0, 0, 0] false 2 5) .jumpRange 0x8005 = true := by decide

/-- V-JMP: taken. -/
theorem test_jumpz_taken : leads (step (st 0x9009 #v[1, 1, 1, 1, 1, 1] true 0 10)) (fun t =>
    t.pc == 9 && t.zf && t.trace == []) = true := by decide

/-- V-JMP: not taken, a target out of range is not checked. -/
theorem test_jumpz_not_taken : leads (step (st 0x9009 #v[1, 1, 1, 1, 1, 1] false 2 5)) (fun t =>
    t.pc == 3 && !t.zf && t.trace == [.exec (.jumpz 9) #v[1, 1, 1, 1, 1, 1]]) = true := by decide

/-- V-LOGIC. -/
theorem test_and : leads (step (st 0xA002 #v[227, 0, 15, 0, 0, 0] false 0 4)) (fun t =>
    t.regs == #v[3, 0, 15, 0, 0, 0]) = true := by decide

/-- V-LOGIC. -/
theorem test_or : leads (step (st 0xB202 #v[0, 4, 15, 0, 0, 0] false 0 4)) (fun t =>
    t.regs == #v[0, 15, 15, 0, 0, 0]) = true := by decide

/-- V-LOGIC. -/
theorem test_xor : leads (step (st 0xD001 #v[170, 255, 0, 0, 0, 0] false 0 4)) (fun t =>
    t.regs == #v[85, 255, 0, 0, 0, 0]) = true := by decide

/-- V-NOT. -/
theorem test_not : leads (step (st 0xC000 #v[28, 1, 1, 1, 1, 1] false 0 4)) (fun t =>
    t.regs == #v[227, 1, 1, 1, 1, 1] && !t.zf) = true := by decide

/-- V-HLT: `zf` stays 0 although a register holds 0. -/
theorem test_hlt : leads (step (st 0xF000 #v[0, 0, 0, 0, 0, 0] false 3 4)) (fun t =>
    t.status == .halted && t.pc == 3 && !t.zf && t.trace == [] && t.steps == 1) = true := by decide

/-- V-DEC: a fetched illegal word. -/
theorem test_illegal_word :
    faultsWith (st 0x0000 #v[0, 0, 0, 0, 0, 0] false 0 1) .illegalOpcode 0x0000 = true := by decide

/-- R129: END before BUDGET, BUDGET before a decode fault. -/
theorem test_priority :
    leads (step { st 0x0000 #v[0, 0, 0, 0, 0, 0] false 1 1 with maxSteps := 0 }) (fun t =>
      t.status == .ended) = true ∧
    leads (step { st 0x0000 #v[0, 0, 0, 0, 0, 0] false 0 1 with maxSteps := 0 }) (fun t =>
      t.status == .budget && t.cause == none) = true := by decide

/-! ### The assembler (V-ASM) -/

/-- A1, A10, `MOV R3 +007` of V-MOV. -/
theorem test_assemble_lines :
    assembleLine "mov".toList ["R0".toList, "5".toList] = .instr (.mov 0 5) ∧
    assembleLine "LOAD".toList ["R2".toList, "-3".toList] = .instr (.load 2 255) ∧
    assembleLine "MOV".toList ["R3".toList, "+007".toList] = .instr (.mov 3 7) ∧
    assembleLine "MOV".toList ["R0".toList, "300".toList] = .instr (.mov 0 44) := by decide

/-- A2 to A7, A12. -/
theorem test_assemble_errors :
    assemble .strict "MOV r0 5".toList = .error 1 .unknownRegister ∧
    assemble .strict "MOV R0, 5".toList = .error 1 .unknownRegister ∧
    assemble .strict "FOO R0 R1".toList = .error 1 .unknownOpcode ∧
    assemble .strict "HLT R0".toList = .error 1 .arity ∧
    assemble .strict "MOV R0 five".toList = .error 1 .nonInteger ∧
    assemble .strict "MOV R0 5 6".toList = .error 1 .arity ∧
    assemble .strict "R0 MOV 5".toList = .error 1 .unknownOpcode := by decide

/-- A8. -/
theorem test_assemble_blank_line : (assemble .strict " \t\nHLT".toList).image = some [0xF000] := by decide

/-- A11, both policies. -/
theorem test_assemble_policies :
    assemble .strict "MOV R0 1\nFOO\nJUMP 1".toList = .error 2 .unknownOpcode ∧
    (assemble .legacyDrop "MOV R0 1\nFOO\nJUMP 1".toList).image = some [0x1001, 0x8001] := by decide

/-- R86, the canonical text. -/
theorem test_render : Instr.render (.load 1 63) = "LOAD R1 63".toList ∧ Instr.render .hlt = "HLT".toList := by
  decide

/-! ### Witnesses: states and operands that meet the hypotheses of each statement -/

/-- After `MOV R0 7`, at the word `w`, with `N = 3`. -/
def mid (w : Word) : State :=
  { State.reset with
    regs := #v[7, 0, 0, 0, 0, 0], zf := true, pc := 1, progLen := 3, steps := 1, maxSteps := 9,
    imem := [(0, 0x1007), (1, w)], trace := [.exec (.mov 0 7) #v[7, 0, 0, 0, 0, 0]] }

/-- `o` is `.next` of a state that passes the check. -/
theorem leads_iff {o : Host.Outcome State Fault Refusal} {p : State → Bool} :
    leads o p = true ↔ ∃ t, o = .next t ∧ p t = true := by
  cases o <;> simp [leads]

theorem test_mid_about_to_fetch (w : Word) : AboutToFetch (mid w) :=
  ⟨rfl, show (1 : Byte).toNat < (3 : Byte).toNat by decide, show (1 : Nat) ≠ 9 by decide⟩

/-- A state of the invariant in the middle of a run. -/
theorem test_mid_invariant (w : Word) : RunInv (mid w) where
  pc := show (1 : Byte).toNat ≤ (3 : Byte).toNat by decide
  steps := show (1 : Nat) ≤ 9 by decide
  dmem := show Memory.wf [] by decide
  imem := by simp [mid, ProgMemory.wf, cellsRising, Config.imemMax]
  zfTrace := .inr ⟨⟨fun _ => ⟨1, rfl⟩, fun _ => rfl⟩, ⟨.mov 0 7, rfl⟩⟩
  traceCount := show List.length [TraceEntry.exec (.mov 0 7) #v[7, 0, 0, 0, 0, 0]] ≤ 1 by decide
  record := ⟨fun _ => ⟨rfl, rfl, rfl⟩, fun h => nomatch h⟩
  status := ⟨(fun h => nomatch h), (fun h => nomatch h), (fun h => nomatch h)⟩

theorem test_witness_EncodeOfDecodeIsTheWord : decode 0xDA05 = .instr (.xor 5 5) := by decide

/-- A row that accepts a word; a word that no row accepts, for its register field and for its opcode. -/
theorem test_witness_LegalWordsAreTheTableRows :
    (∃ r ∈ opcodeRows, r.accepts 0x4A05 = true) ∧ (∀ r ∈ opcodeRows, r.accepts 0x4A06 = false) ∧
    (∀ r ∈ opcodeRows, r.accepts 0xEFFF = false) := by decide

theorem test_witness_IllegalOpcodeBeforeOperand :
    fieldOP 0x0FFF = 0 ∧ fieldOP 0xEFFF = 14 ∧ fieldOP 0x4008 ≠ 0 ∧ fieldOP 0x4008 ≠ 14 ∧
    (∀ i, decode 0x4008 ≠ .instr i) := by
  have h : decode 0x4008 = .illegal .illegalOperand := by decide
  exact ⟨by decide, by decide, by decide, by decide, fun i => by rw [h]; simp⟩

/-- One word for each must-be-zero field of each format. -/
theorem test_witness_NonzeroReservedFieldIsIllegal :
    (fieldOP 0x1100 = Opcode.mov.code ∧ fieldZ 0x1100 ≠ 0) ∧
    (fieldOP 0x8200 = Opcode.jump.code ∧ Opcode.jump.format = .j ∧ fieldRA 0x8200 ≠ 0) ∧
    (fieldOP 0xF200 = Opcode.hlt.code ∧ Opcode.hlt.format = .n ∧ fieldRA 0xF200 ≠ 0) ∧
    (fieldOP 0xC001 = Opcode.not.code ∧ Opcode.not.format = .r1 ∧ fieldIMM8 0xC001 ≠ 0) ∧
    (fieldOP 0xF080 = Opcode.hlt.code ∧ fieldIMM8 0xF080 ≠ 0) ∧
    (fieldOP 0x4008 = Opcode.add.code ∧ Opcode.add.format = .rr ∧ fieldHI5 0x4008 ≠ 0) := by decide

theorem test_witness_RegisterFieldsNameSixRegisters :
    regOf 5 = some 5 ∧ regOf 6 = none ∧
    (fieldOP 0x1C00 = Opcode.mov.code ∧ Opcode.mov.format ≠ .j ∧ Opcode.mov.format ≠ .n ∧
      (fieldRA 0x1C00).toNat = 6) ∧
    (fieldOP 0x4006 = Opcode.add.code ∧ Opcode.add.format = .rr ∧ (fieldRB 0x4006).toNat = 6) := by decide

/-- The longest program, and an index of it. -/
theorem test_witness_LaunchGivesTheResetState :
    (List.replicate 255 (0x1005 : Word)).length ≤ 255 ∧
    254 < (List.replicate 255 (0x1005 : Word)).length := by
  rw [List.length_replicate]; decide

theorem test_witness_LongProgramIsNotLaunched : 255 < (List.replicate 256 (0 : Word)).length := by
  rw [List.length_replicate]; decide

theorem test_witness_LaunchMeetsTheInvariant : (State.launch [0x1005, 0xF000] 9).isSome = true := by decide

theorem test_witness_HostResultShowsTheState : (63 : Nat) < 64 := by decide

theorem test_witness_StepRunsTheDecodedInstruction :
    AboutToFetch (mid 0x5001) ∧
    decode ((mid 0x5001).imem.read (mid 0x5001).pc.toNat) = .instr (.sub 0 1) :=
  ⟨test_mid_about_to_fetch _, by decide⟩

/-- One state for each decode cause. -/
theorem test_witness_IllegalWordFaults :
    (AboutToFetch (mid 0xE000) ∧
      decode ((mid 0xE000).imem.read (mid 0xE000).pc.toNat) = .illegal .illegalOpcode) ∧
    (AboutToFetch (mid 0xF001) ∧
      decode ((mid 0xF001).imem.read (mid 0xF001).pc.toNat) = .illegal .illegalOperand) :=
  ⟨⟨test_mid_about_to_fetch _, by decide⟩, ⟨test_mid_about_to_fetch _, by decide⟩⟩

/-- A step into each cause of FAULT; also a witness for the clause on faults of NextProgramCounter. -/
theorem test_witness_EveryFaultIsPrecise :
    [0x0000, 0xF001, 0x2240, 0x8003].map (fun w =>
      leads (step (mid w)) (fun t => t.status == .fault)) = [true, true, true, true] := by decide

/-- `pc = N` at 0 and above; the step from `N - 1` that gets to `N`. -/
theorem test_witness_EndAtProgramLength :
    (State.reset.status = .running ∧ State.reset.pc = State.reset.progLen) ∧
    ({ mid 0 with pc := 3 }.status = .running ∧ { mid 0 with pc := 3 }.pc = (mid 0).progLen) ∧
    leads (step { mid 0x1005 with progLen := 2 }) (fun t => t.pc == 2 && t.progLen == 2) = true := by decide

theorem test_witness_BudgetEndsTheRun :
    { mid 0 with maxSteps := 1 }.status = .running ∧ (mid 0).pc.toNat < (mid 0).progLen.toNat ∧
    (mid 0).steps = { mid 0 with maxSteps := 1 }.maxSteps := by decide

theorem test_witness_NoStepAfterTheRun :
    [RunStatus.halted, .ended, .fault, .budget].all (fun x =>
      { mid 0 with status := x }.status != .running) = true := by decide

theorem test_witness_RunningStateHasAStep : RunInv (mid 0xF000) ∧ (mid 0xF000).status = .running :=
  ⟨test_mid_invariant _, rfl⟩

theorem test_witness_StepKeepsTheInvariant :
    RunInv (mid 0x5001) ∧ ∃ t, step (mid 0x5001) = .next t :=
  ⟨test_mid_invariant _, (leads_iff (p := fun _ => true)).1 (by decide) |>.imp fun _ h => h.1⟩

/-- A step that leaves the run going; a state of the invariant; a program. -/
theorem test_witness_RunEndsWithinTheBudget :
    leads (step (mid 0x5001)) (fun t => t.status == .running) = true ∧ RunInv (mid 0x8000) ∧
    ([0x1001, 0x8000] : List Word).length ≤ 255 :=
  ⟨by decide, test_mid_invariant _, by decide⟩

/-- A step to each run status. -/
theorem test_witness_StepsCountsCompletedInstructions :
    leads (step (mid 0x5001)) (fun t => t.status == .running) = true ∧
    leads (step (mid 0xF000)) (fun t => t.status == .halted) = true ∧
    leads (step (mid 0x0000)) (fun t => t.status == .fault) = true ∧
    leads (step { mid 0 with pc := 3 }) (fun t => t.status == .ended) = true ∧
    leads (step { mid 0 with maxSteps := 1 }) (fun t => t.status == .budget) = true := by decide

/-- Each outcome of the table of R21: a target `N - 1`, taken and not, HLT, the bookkeeping. -/
theorem test_witness_NextProgramCounter :
    (∀ w, AboutToFetch (mid w)) ∧
    leads (step (mid 0x8002)) (fun t => t.status != .fault && t.pc == 2) = true ∧
    leads (step (mid 0x9002)) (fun t => t.status != .fault && t.pc == 2) = true ∧
    leads (step { mid 0x90FF with zf := false }) (fun t => t.status != .fault && t.pc == 2) = true ∧
    leads (step (mid 0xF000)) (fun t => t.status != .fault && t.pc == 1) = true ∧
    leads (step (mid 0x7201)) (fun t => t.status != .fault && t.pc == 2) = true :=
  ⟨test_mid_about_to_fetch, by decide, by decide, by decide, by decide, by decide⟩

/-- An instruction; a step of each of the events that append nothing. -/
theorem test_witness_TraceEntriesOfAStep :
    leads (exec (.div 1 1) (mid 0)) (fun t => t.trace.length == 3) = true ∧
    (∀ i, decode ((mid 0).imem.read (mid 0).pc.toNat) ≠ .instr i) ∧
    leads (step (mid 0)) (fun _ => true) = true ∧
    leads (step { mid 0 with pc := 3 }) (fun t => t.status == .ended) = true ∧
    leads (step { mid 0 with maxSteps := 1 }) (fun t => t.status == .budget) = true := by
  have h : decode ((mid 0).imem.read (mid 0).pc.toNat) = .illegal .illegalOpcode := by decide
  exact ⟨by decide, fun i => by rw [h]; simp, by decide, by decide, by decide⟩

theorem test_witness_ProgramNeverChanges : leads (step (mid 0x3000)) (fun _ => true) = true := by decide

/-- Two instruction memories that agree below `N` and not at `N`. -/
theorem test_witness_WordsBeyondTheProgramDoNotMatter :
    (∀ j, j < (2 : Byte).toNat →
      ProgMemory.read [(0, 0x1007), (1, 0x3000), (2, 0xF000)] j = ProgMemory.read [(0, 0x1007), (1, 0x3000), (2, 0)] j) ∧
    ProgMemory.read [(0, 0x1007), (1, 0x3000), (2, 0xF000)] 2 ≠ ProgMemory.read [(0, 0x1007), (1, 0x3000), (2, 0)] 2 ∧
    leads (step { mid 0x3000 with progLen := 2 }) (fun _ => true) = true := by decide

theorem test_witness_OnlyRAIsWritten :
    leads (exec (.add 0 1) (mid 0)) (fun _ => true) = true ∧ writable (.add 0 1) ≠ some 1 := by decide

/-- For the clauses on what LOAD reads: two data memories that agree on one cell and not on another. -/
theorem test_witness_OnlyLoadAndStoreReachDataMemory :
    leads (exec (.store 0 63) (mid 0)) (fun t => t.dmem.read 63 == 7) = true ∧
    (∀ d a, Instr.add 0 1 ≠ .load d a) ∧ (∀ r a, Instr.load 0 1 ≠ .store r a) ∧
    (Memory.read [(3, 9)] 3 = Memory.read [(2, 1), (3, 9)] 3 ∧
      Memory.read [(3, 9)] 2 ≠ Memory.read [(2, 1), (3, 9)] 2) := by
  refine ⟨by decide, ?_, ?_, by decide⟩ <;> intros <;> simp

/-- Each of the four that keep `zf`, and one that writes it. -/
theorem test_witness_OnlyBookkeepingWritesZeroFlag :
    (mid 0).status = .running ∧
    leads (exec (.jump 0) (mid 0)) (fun _ => true) = true ∧
    leads (exec (.jumpz 0) (mid 0)) (fun _ => (mid 0).zf) = true ∧
    leads (exec .hlt (mid 0)) (fun _ => true) = true ∧
    leads (exec (.load 0 64) (mid 0)) (fun t => t.status == .fault) = true ∧
    leads (exec (.store 0 0) (mid 0)) (fun t => t.status != .fault) = true := by decide

theorem test_witness_OnlyJumpzReadsZeroFlag :
    (∀ p, Instr.hlt ≠ .jumpz p) ∧ leads (exec .hlt (mid 0)) (fun _ => true) = true ∧
    leads (exec .hlt { mid 0 with zf := false }) (fun t => !t.zf) = true :=
  ⟨by simp, by decide, by decide⟩

/-- Two states that differ in a register that `SUB R0 R1` does not read. -/
theorem test_witness_EffectReadsOnlyThePorts :
    (∀ r, portA (.sub 0 1) = some r → (mid 0).readReg r = { mid 0 with regs := #v[7, 0, 1, 0, 0, 0] }.readReg r) ∧
    (∀ r, portB (.sub 0 1) = some r → (mid 0).readReg r = { mid 0 with regs := #v[7, 0, 1, 0, 0, 0] }.readReg r) ∧
    MemKept (mid 0) { mid 0 with regs := #v[7, 0, 1, 0, 0, 0] } ∧
    (mid 0).regs ≠ #v[7, 0, 1, 0, 0, 0] :=
  ⟨by decide, by decide, fun _ => rfl, by decide⟩

theorem test_witness_PortsCarryTheEffect :
    leads (exec (.load 0 63) (mid 0)) (fun _ => (dmemPort (.load 0 63) (mid 0)).re) = true ∧
    leads (exec (.store 0 63) (mid 0)) (fun _ => (dmemPort (.store 0 63) (mid 0)).we) = true := by decide

/-- Operands on both sides of each bound. -/
theorem test_witness_ExecuteFaultsAreOutOfRangeOperands :
    (mid 0).status = .running ∧
    leads (exec (.store 0 64) (mid 0)) (fun t => t.cause == some .memRange) = true ∧
    leads (exec (.store 0 63) (mid 0)) (fun t => t.cause == none) = true ∧
    leads (exec (.jump 3) (mid 0)) (fun t => t.cause == some .jumpRange) = true ∧
    leads (exec (.jump 2) (mid 0)) (fun t => t.cause == none) = true := by decide

theorem test_witness_MovWritesTheLiteral :
    parseInt "-256".toList = some (-256) ∧ (fieldOP 0x1100 = 0x1 ∧ fieldZ 0x1100 ≠ 0) ∧
    (fieldOP 0x1C00 = 0x1 ∧ 5 < (fieldRA 0x1C00).toNat) := by decide

theorem test_witness_LoadReadsTheCell :
    parseInt "63".toList = some 63 ∧ (63 : Byte).toNat ≤ 63 ∧ 64 ≤ (64 : Byte).toNat := by decide

theorem test_witness_StoreWritesTheCell :
    dataAddr 63 = some 63 ∧ dataAddr 0 = some 0 ∧ dataAddr 64 = none ∧ parseInt "+0".toList = some 0 ∧
    64 ≤ (64 : Byte).toNat := by decide

theorem test_witness_LoadAfterStoreGivesTheValue :
    leads (exec (.store 0 63) (mid 0)) (fun t => leads (exec (.load 5 63) t) (fun u =>
      u.readReg 5 == 7)) = true := by decide

theorem test_witness_DivFloorsAndRecoversFromZero :
    (mid 0).readReg 0 ≠ 0 ∧ (mid 0).readReg 1 = 0 := by decide

/-- `SameRegisterTwice` has the same two conditions on its one register. -/
theorem test_witness_SameRegisterTwice : (mid 0).readReg 0 ≠ 0 ∧ (mid 0).readReg 5 = 0 := by decide

theorem test_witness_JumpGoesToTheTarget :
    parseInt "1000".toList = some 1000 ∧ (2 : Byte).toNat < (mid 0).progLen.toNat ∧
    (mid 0).progLen.toNat ≤ (3 : Byte).toNat := by decide

theorem test_witness_JumpzFollowsTheZeroFlag :
    ((mid 0).zf = true ∧ (2 : Byte).toNat < (mid 0).progLen.toNat ∧
      (mid 0).progLen.toNat ≤ (3 : Byte).toNat) ∧
    { mid 0 with zf := false }.zf = false ∧ parseInt "-1".toList = some (-1) := by decide

theorem test_witness_NotIsOnesComplement : fieldOP 0xC001 = 0xC ∧ fieldIMM8 0xC001 ≠ 0 := by decide

theorem test_witness_HltHaltsTheRun : fieldOP 0xF001 = 0xF ∧ (0xF001 : Word) ≠ 0xF000 := by decide

/-- A token that is no mnemonic; both ends of `a`..`z`, and the characters next to them. -/
theorem test_witness_MnemonicsAreCaseInsensitive :
    (∀ o : Opcode, "foo".toList.map upperChar ≠ opcodeText o) ∧
    (97 ≤ 'a'.toNat ∧ 'z'.toNat ≤ 122) ∧ ¬ (97 ≤ '`'.toNat) ∧ ¬ ((Char.ofNat 123).toNat ≤ 122) :=
  ⟨fun o => by cases o <;> decide, by decide⟩

/-- Both sides of both bounds. -/
theorem test_witness_AddressesOutsideTheFieldNameNothing :
    (0 ≤ (0 : Int) ∧ (0 : Int) ≤ 254) ∧ (0 ≤ (254 : Int) ∧ (254 : Int) ≤ 254) ∧
    ¬ (0 ≤ (255 : Int) ∧ (255 : Int) ≤ 254) ∧ ¬ (0 ≤ (-1 : Int) ∧ (-1 : Int) ≤ 254) := by decide

theorem test_witness_AssembledProgramFits : assemble .strict "HLT".toList = .program [.hlt] := by decide

/-- A short text, and A13: 256 lines of HLT. -/
theorem test_witness_LegacyDropKeepsTheGoodLines :
    ((splitLines "FOO\nHLT".toList).filterMap lineInstr).length ≤ 255 ∧
    255 < ((splitLines (renderProgram (List.replicate 256 .hlt))).filterMap lineInstr).length := by
  refine ⟨by decide, ?_⟩
  have h : ∀ n, ((splitLines (renderProgram (List.replicate n .hlt))).filterMap lineInstr).length = n := by
    intro n
    induction n with
    | zero => decide
    | succ n ih =>
      have e : renderProgram (List.replicate (n + 1) .hlt) =
          Instr.render .hlt ++ '\n' :: renderProgram (List.replicate n .hlt) := by
        simp [renderProgram, List.replicate_succ]
      rw [e, splitLines_line _ _ (render_no_lineFeed .hlt)]
      have : lineInstr (Instr.render .hlt) = some .hlt := by decide
      simp [this, ih]
  rw [h]; decide

/-- A text without errors, which gives a program, and a text whose second line fails. -/
theorem test_witness_StrictStopsAtTheFirstBadLine :
    (∀ l ∈ splitLines "MOV R0 1\n\nHLT".toList, lineError l = none) ∧
    ((splitLines "MOV R0 1\n\nHLT".toList).filterMap lineInstr).length ≤ 255 ∧
    assemble .strict "MOV R0 1\n\nHLT".toList = .program [.mov 0 1, .hlt] ∧
    (∃ l ∈ splitLines "HLT\nNOT R6".toList, lineError l ≠ none) ∧
    assemble .strict "HLT\nNOT R6".toList = .error 2 .unknownRegister := by decide

theorem test_witness_RenderedProgramAssembles : (List.replicate 255 Instr.hlt).length ≤ 255 := by
  rw [List.length_replicate]

end Sys2Proof.Tests
end

section
/-! SUPPORT. What the instructions and a step do to the state, said through the ports and the effects; then the
statements about the state (10_state). -/

namespace Sys2Proof.Machine

/-! ### The word of a decoded instruction (R70, R87) -/

/-- Encoding what a word decodes to gives the word back: by the format of its opcode, the word is the packing of
its own fields. -/
theorem encode_of_decode {w : Word} {i : Instr} (h : decode w = .instr i) : encode i = w := by
  obtain ⟨op, ho, hi⟩ := decode_eq_instr.1 h
  cases op with
  | mov | load | store =>
    obtain ⟨hz, a, ha, rfl⟩ := decodeRegImm_eq_some.1 hi
    have hw := packWord_fields w hz
    rwa [ho, ha] at hw
  | add | sub | mul | div | and | or | xor =>
    obtain ⟨hz, a, b, ha, hb, rfl⟩ := decodeRegReg_eq_some.1 hi
    have hw := packWord_fields w hz
    rwa [ho, ha, hb] at hw
  | not =>
    obtain ⟨hz, hv, a, ha, rfl⟩ := decodeReg_eq_some.1 hi
    have hw := packWord_fields w hz
    rwa [ho, ha, hv] at hw
  | jump | jumpz =>
    obtain ⟨ha, hz, rfl⟩ := decodeTarget_eq_some.1 hi
    have hw := packWord_fields w hz
    rwa [ho, ha] at hw
  | hlt =>
    obtain ⟨ha, hz, hv, rfl⟩ := decodeNone_eq_some.1 hi
    have hw := packWord_fields w hz
    rwa [ho, ha, hv] at hw

/-! ### The commit of an effect (R94) -/

/-- A commit changes none of the host's inputs (R31, R38). -/
theorem commit_hostInputsKept (i : Instr) (e : Effect) (s : State) : HostInputsKept s (commit i e s) := by
  cases e with
  | seq wr mw dz => exact (commit_seq_bookkept i wr mw dz s).inputs
  | jump p => exact ⟨rfl, rfl, rfl⟩
  | halt => exact ⟨rfl, rfl, rfl⟩
  | fault c => exact ⟨rfl, rfl, rfl⟩

/-- After an instruction the registers are the register file with write port W applied (R18, R94). -/
theorem readReg_commit_effectOf (i : Instr) (s : State) (q : Reg) :
    (commit i (effectOf i s) s).readReg q = (s.commitReg (portW i s)).readReg q := by
  unfold portW
  cases effectOf i s with
  | seq wr mw dz => exact commit_seq_readReg i wr mw dz s q
  | jump p => rfl
  | halt => rfl
  | fault c => rfl

/-- A register after a write through port W. -/
theorem readReg_writeReg (s : State) (r q : Reg) (v : Byte) :
    (s.writeReg r v).readReg q = if q = r then v else s.readReg q := by
  split_ifs with h
  · rw [h, readReg_writeReg_same]
  · exact readReg_writeReg_ne s r q v h

/-- Port W is addressed with the register the RA field names (R17, R18). -/
theorem writable_of_portW {i : Instr} {s : State} {r : Reg} {v : Byte} (h : portW i s = some (r, v)) :
    writable i = some r := by
  unfold portW at h
  cases he : effectOf i s with
  | seq wr mw dz =>
    obtain ⟨hw, -⟩ := effectOf_eq_seq he
    exact hw r v (by simpa [he] using h)
  | jump p => simp [he] at h
  | halt => simp [he] at h
  | fault c => simp [he] at h

/-- Every instruction but STORE keeps data memory (R42). -/
theorem commit_effectOf_dmem_of_ne_store {i : Instr} (s : State) (h : ∀ r a, i ≠ .store r a) :
    (commit i (effectOf i s) s).dmem = s.dmem := by
  cases he : effectOf i s with
  | seq wr mw dz =>
    obtain ⟨-, hmw, -⟩ := effectOf_eq_seq he
    rw [commit_seq_dmem]
    cases mw with
    | none => rfl
    | some cv =>
      obtain ⟨r, a, hi, -⟩ := hmw cv.1 cv.2 rfl
      exact absurd hi (h r a)
  | jump p => rfl
  | halt => rfl
  | fault c => rfl

/-- Data memory after a STORE: the addressed cell, where there is one, holds the register (R107). -/
theorem commit_effectOf_store_read (r : Reg) (a : Byte) (s : State) (k : Nat) :
    (commit (.store r a) (effectOf (.store r a) s) s).dmem.read k =
      if a.toNat ≤ 63 ∧ k = a.toNat then s.readReg r else s.dmem.read k := by
  rcases effectStore_cases r a s with ⟨ha, he⟩ | ⟨ha, he⟩ <;> rw [effectOf, he]
  · obtain ⟨-, hc⟩ := dataAddr_eq_some (dataAddr_of_le ha)
    rw [commit_seq_dmem, commitMem_some_dmem, hc]
    split_ifs with hk
    · rw [hk.2, Memory.read_write_same]
    · exact Memory.read_write_ne _ _ _ _ fun e => hk ⟨ha, e⟩
  · rw [if_neg (by omega)]
    rfl

/-- Data memory after an instruction is the data-memory port applied to the cells (R44). -/
theorem dmem_read_commit_effectOf (i : Instr) (s : State) (k : Nat) :
    (commit i (effectOf i s) s).dmem.read k =
      if (dmemPort i s).we = true ∧ k = (dmemPort i s).addr.toNat then (dmemPort i s).wdata
      else s.dmem.read k := by
  by_cases hst : ∃ r a, i = .store r a
  · obtain ⟨r, a, rfl⟩ := hst
    rw [commit_effectOf_store_read]
    by_cases ha : a.toNat ≤ 63
    · obtain ⟨-, hc⟩ := dataAddr_eq_some (dataAddr_of_le ha)
      simp [dmemPort, State.dmemPortAt, dataAddr_of_le ha, hc, ha]
    · simp [dmemPort, State.dmemPortAt, dataAddr_of_gt (a := a) (by omega), ha]
  · have hne : ∀ r a, i ≠ .store r a := fun r a e => hst ⟨r, a, e⟩
    have hwe : (dmemPort i s).we ≠ true := fun e => by
      obtain ⟨r, a, hi, -⟩ := (dmemPort_enables i s).1.1 e
      exact hne r a hi
    rw [commit_effectOf_dmem_of_ne_store s hne, if_neg fun e => hwe e.1]

/-- In a read, what `dm_rdata` carries goes to port W (R18, R44). -/
theorem portW_of_read_enabled {i : Instr} {s : State} (h : (dmemPort i s).re = true) :
    portW i s = (writable i).map fun r => (r, (dmemPort i s).rdata) := by
  obtain ⟨d, a, rfl, ha⟩ := (dmemPort_enables i s).2.1 h
  obtain ⟨c, hc⟩ := Option.isSome_iff_exists.1 ha
  obtain ⟨hle, hcell⟩ := dataAddr_eq_some hc
  obtain ⟨-, he⟩ | ⟨hgt, -⟩ := effectLoad_cases d a s
  · obtain ⟨-, haddr⟩ := dataAddr_eq_some (dataAddr_of_le hle)
    simp [portW, effectOf, he, writesReg, writable, dmemPort, State.dmemPortAt, haddr]
  · omega

/-! ### What an effect reads (R93) -/

/-- The effect of every instruction is a function of its read ports, data memory, `zf` and `N`. -/
theorem effectOf_congr {i : Instr} {s t : State} (hA : ∀ r, portA i = some r → t.readReg r = s.readReg r)
    (hB : ∀ r, portB i = some r → t.readReg r = s.readReg r) (hm : MemKept s t) (hz : t.zf = s.zf)
    (hN : t.progLen = s.progLen) : effectOf i t = effectOf i s := by
  cases i with
  | mov d v => rfl
  | hlt => rfl
  | load d a => simp only [effectOf, effectLoad, hm _]
  | store r a => simp only [effectOf, effectStore, hA r rfl]
  | jump p => simp only [effectOf, effectJump, hN]
  | jumpz p => simp only [effectOf, effectJumpz, hN, hz]
  | not a => simp only [effectOf, effectNot, hA a rfl]
  | add a b => simp only [effectOf, effectAdd, hA a rfl, hB b rfl]
  | sub a b => simp only [effectOf, effectSub, hA a rfl, hB b rfl]
  | mul a b => simp only [effectOf, effectMul, hA a rfl, hB b rfl]
  | div a b => simp only [effectOf, effectDiv, hA a rfl, hB b rfl]
  | and a b => simp only [effectOf, effectAnd, hA a rfl, hB b rfl]
  | or a b => simp only [effectOf, effectOr, hA a rfl, hB b rfl]
  | xor a b => simp only [effectOf, effectXor, hA a rfl, hB b rfl]

/-- Only JUMPZ's effect reads `zf` (R25). -/
theorem effectOf_withZf {i : Instr} (s : State) (b : Bool) (h : ∀ p, i ≠ .jumpz p) :
    effectOf i { s with zf := b } = effectOf i s := by
  cases i with
  | jumpz p => exact absurd rfl (h p)
  | _ => rfl

/-- A commit does not read `zf`: the bookkeeping overwrites it, everything else passes it on. -/
theorem commit_withZf (i : Instr) (e : Effect) (s : State) (b : Bool) :
    { commit i e { s with zf := b } with zf := (commit i e s).zf } = commit i e s := by
  cases e with
  | seq wr mw dz => cases wr <;> cases mw <;> cases dz <;> rfl
  | jump p => rfl
  | halt => rfl
  | fault c => rfl

/-! ### One register written; the arithmetic unit (R109..R112) -/

/-- An instruction whose effect writes one register runs as such. -/
theorem runsWriting_of_effectOf {i : Instr} {r : Reg} {v : Byte} {s : State}
    (h : effectOf i s = writesReg r v) : RunsWriting i r v s := by
  obtain ⟨t, ht, hrest⟩ := perform_writesReg i r v s
  exact ⟨t, by rw [exec_eq, h]; exact ht, hrest⟩

theorem aluAdd_toNat (a b : Byte) : (aluAdd a b).toNat = (a.toNat + b.toNat) % 256 := by
  simp [aluAdd]

theorem aluMul_toNat (a b : Byte) : (aluMul a b).toNat = (a.toNat * b.toNat) % 256 := by
  simp [aluMul]

@[simp] theorem aluSub_self (a : Byte) : aluSub a a = 0 := by
  simp [aluSub]

theorem aluDiv_self {a : Byte} (h : a ≠ 0) : aluDiv a a = 1 := by
  have ha : 0 < a.toNat := Nat.pos_of_ne_zero fun e => h (BitVec.eq_of_toNat_eq e)
  rw [aluDiv, Nat.div_self ha]
  rfl

/-! ### A step that is about to fetch (R88) -/

/-- A JUMP or a taken JUMPZ has one target. -/
theorem jump_target_unique {i : Instr} {s : State} {p q : Byte}
    (hp : i = .jump p ∨ (i = .jumpz p ∧ s.zf = true)) (hq : i = .jump q ∨ (i = .jumpz q ∧ s.zf = true)) :
    p = q := by
  grind

/-- A `pc` below `N` advances without wrapping (R22). -/
theorem AboutToFetch.pc_succ {s : State} (h : AboutToFetch s) : (s.pc + 1).toNat = s.pc.toNat + 1 := by
  have hp := h.pc
  have hN := s.progLen.isLt
  rw [BitVec.toNat_add]
  simp
  omega

/-- About to fetch, a step either faults on an illegal word or commits the effect of the decoded instruction. -/
theorem AboutToFetch.step_cases {s t : State} (ha : AboutToFetch s) (h : step s = .next t) :
    (∃ c, decode (s.imem.read s.pc.toNat) = .illegal c ∧ t = takeFault c (s.imem.read s.pc.toNat) s) ∨
      ∃ i, decode (s.imem.read s.pc.toNat) = .instr i ∧ t = commit i (effectOf i s) s := by
  have hp := ha.pc
  obtain ⟨-, ⟨he, -⟩ | ⟨-, hb, -⟩ | ⟨-, hc⟩ | ⟨-, hi⟩⟩ := Machine.step_cases h
  · rw [he] at hp
    omega
  · exact absurd hb ha.budget
  · exact .inl hc
  · exact .inr hi

/-! ### The parts of the invariant -/

/-- What the invariant says of `zf` and the trace speaks of the registers, data memory, `zf` and the trace only. -/
theorem untouched_or_settled_congr {s t : State} (h : Untouched s ∨ Settled s) (hr : t.regs = s.regs)
    (hm : t.dmem = s.dmem) (hz : t.zf = s.zf) (ht : t.trace = s.trace) : Untouched t ∨ Settled t := by
  have hread := regsKept_of_eq hr
  rcases h with h | h
  · exact .inl ⟨fun r => (hread r).trans (h.regs r), fun a => (memKept_of_eq hm a).trans (h.mem a),
      hz.trans h.zf, ht.trans h.trace⟩
  · refine .inr ⟨?_, ?_⟩
    · rw [hz, h.zf]
      simp only [hread _]
    · rw [ht, hr]
      exact h.trace

/-- A fault record that is clear stays in agreement where no fault is taken (R29). -/
theorem RecordAgrees.of_noFault {s t : State} (h : RecordAgrees s) (hs : s.status ≠ .fault)
    (ht : t.status ≠ .fault) (hc : t.cause = s.cause) (hp : t.fpc = s.fpc) (hw : t.fword = s.fword) :
    RecordAgrees t := by
  obtain ⟨c0, p0, w0⟩ := h.clear hs
  exact ⟨fun _ => ⟨hc.trans c0, hp.trans p0, hw.trans w0⟩, fun e => absurd e ht⟩

theorem statusAgrees_of_running {t : State} (h : t.status = .running) : StatusAgrees t :=
  ⟨by simp [h], by simp [h], by simp [h]⟩

/-- A state that differs in its run status and fault record alone meets the invariant where these agree with
`pc` and STEPS. -/
theorem RunInv.withRecord {s : State} (h : RunInv s) (st : RunStatus) (c : Option Cause) (p : Byte) (w : Word)
    (hr : RecordAgrees { s with status := st, cause := c, fpc := p, fword := w })
    (hs : StatusAgrees { s with status := st, cause := c, fpc := p, fword := w }) :
    RunInv { s with status := st, cause := c, fpc := p, fword := w } :=
  ⟨h.pc, h.steps, h.dmem, h.imem, untouched_or_settled_congr h.zfTrace rfl rfl rfl rfl, h.traceCount, hr, hs⟩

/-- A run that ends without a fault: the record is still clear. -/
theorem RunInv.endedWith {s : State} (h : RunInv s) (hrun : s.status = .running) {st : RunStatus}
    (hst : st ≠ .fault) (hs : StatusAgrees { s with status := st }) : RunInv { s with status := st } :=
  h.withRecord st s.cause s.fpc s.fword (h.record.of_noFault (by simp [hrun]) hst rfl rfl rfl) hs

/-- Counting a step within the budget keeps the invariant (R101). -/
theorem RunInv.countStep {s : State} (h : RunInv s) (hb : s.steps < s.maxSteps) : RunInv s.countStep where
  pc := h.pc
  steps := hb
  dmem := h.dmem
  imem := h.imem
  zfTrace := untouched_or_settled_congr h.zfTrace rfl rfl rfl rfl
  traceCount := Nat.le_succ_of_le h.traceCount
  record := ⟨h.record.clear, h.record.faulted⟩
  status := ⟨h.status.ended, fun e => absurd (h.status.budget e).1 hb.ne, h.status.halted⟩

/-- Moving `pc` of a running state to an index of the program keeps the invariant (R22). -/
theorem RunInv.withPc {s : State} (h : RunInv s) (hrun : s.status = .running) {p : Byte}
    (hp : p.toNat < s.progLen.toNat) : RunInv { s with pc := p } where
  pc := hp.le
  steps := h.steps
  dmem := h.dmem
  imem := h.imem
  zfTrace := untouched_or_settled_congr h.zfTrace rfl rfl rfl rfl
  traceCount := h.traceCount
  record := h.record.of_noFault (by simp [hrun]) (by simp [hrun]) rfl rfl rfl
  status := statusAgrees_of_running hrun

/-- A committed cell write keeps data memory canonical: a 6-bit address is below 64 (R40). -/
theorem commitMem_wf {s : State} (h : s.dmem.wf) (mw : Option (BitVec 6 × Byte)) :
    (s.commitMem mw).dmem.wf := by
  cases mw with
  | none => exact h
  | some cv => exact Memory.wf_write s.dmem cv.1.toNat cv.2 h cv.1.isLt

/-! ### The invariant and the commit of each effect -/

section Commit
variable {s : State} (h : RunInv s) (ha : AboutToFetch s)
include h ha

/-- Within the budget, a state about to fetch has a step left. -/
theorem RunInv.steps_lt : s.steps < s.maxSteps := lt_of_le_of_ne h.steps ha.budget

/-- A bookkeeping effect settles the state: `zf` and the last trace entry show the registers (R95, R97). -/
theorem RunInv.commit_seq (i : Instr) (wr : Option (Reg × Byte)) (mw : Option (BitVec 6 × Byte)) (dz : Bool) :
    RunInv (commit i (.seq wr mw dz) s) := by
  have hb := commit_seq_bookkept i wr mw dz s
  have hrun : (commit i (.seq wr mw dz) s).status = .running := hb.status.status.trans ha.running
  refine ⟨?_, ?_, ?_, ?_, ?_, ?_, ?_, statusAgrees_of_running hrun⟩
  · rw [hb.pc, hb.inputs.progLen, ha.pc_succ]
    exact ha.pc
  · rw [hb.steps, hb.inputs.maxSteps]
    exact h.steps_lt ha
  · rw [commit_seq_dmem]
    exact commitMem_wf h.dmem mw
  · rw [hb.inputs.imem]
    exact h.imem
  · exact .inr ⟨hb.zf, i, by rw [hb.trace, List.getLast?_concat]⟩
  · have hc := h.traceCount
    rw [hb.trace, hb.steps]
    cases dz <;> simpa [List.filter_cons, TraceEntry.isExec] using hc
  · exact h.record.of_noFault (by simp [ha.running]) (by simp [hrun]) hb.status.cause hb.status.fpc
      hb.status.fword

/-- Fault entry with the word at `pc` records it in agreement with `pc` (R126). -/
theorem RunInv.takeFault (c : Cause) : RunInv (takeFault c (s.imem.read s.pc.toNat) s) :=
  h.withRecord .fault (some c) s.pc (s.imem.read s.pc.toNat)
    ⟨fun e => absurd rfl e, fun _ => ⟨rfl, rfl, ha.pc, rfl⟩⟩
    ⟨nofun, nofun, nofun⟩

/-- The instruction at `pc` keeps the invariant, whatever its effect. -/
theorem RunInv.commit_effectOf {i : Instr} (hi : decode (s.imem.read s.pc.toNat) = .instr i) :
    RunInv (commit i (effectOf i s) s) := by
  cases he : effectOf i s with
  | seq wr mw dz => exact h.commit_seq ha i wr mw dz
  | jump p => exact (h.withPc ha.running (effectOf_eq_jump he).1).countStep (h.steps_lt ha)
  | halt =>
    have hend : RunInv { s with status := .halted } :=
      h.endedWith ha.running (by simp) ⟨nofun, nofun, fun _ => ha.pc⟩
    exact hend.countStep (h.steps_lt ha)
  | fault c =>
    rw [commit, encode_of_decode hi]
    exact h.takeFault ha c

end Commit

/-! ### The statements -/

/-- Settles O23: by what a step can do. END, BUDGET and fault entry change the run status and the record alone;
an instruction by the kind of its effect. -/
theorem stepKeepsTheInvariant : Obligations.StepKeepsTheInvariant := by
  intro s t h hst
  obtain ⟨hrun, ⟨hp, rfl⟩ | ⟨hp, hb, rfl⟩ | ⟨ha, c, -, rfl⟩ | ⟨ha, i, hi, rfl⟩⟩ := step_cases hst
  · exact h.endedWith hrun (by simp) ⟨fun _ => hp, nofun, nofun⟩
  · exact h.endedWith hrun (by simp) ⟨nofun, fun _ => ⟨hb, hp⟩, nofun⟩
  · exact h.takeFault ha c
  · exact h.commit_effectOf ha hi

/-- Settles O26, by the kind of the effect of the instruction at `pc`. -/
theorem nextProgramCounter : Obligations.NextProgramCounter := by
  intro s t ha hst
  obtain ⟨c, -, rfl⟩ | ⟨i, hi, rfl⟩ := ha.step_cases hst
  · exact ⟨fun _ => rfl, fun hne => absurd rfl hne⟩
  cases he : effectOf i s with
  | seq wr mw dz =>
    obtain ⟨-, -, -, hj, hz, hh⟩ := effectOf_eq_seq he
    have hb := commit_seq_bookkept i wr mw dz s
    refine ⟨fun hf => ?_, fun _ => ⟨i, hi, ?_, fun e => absurd e hh, fun _ _ _ => ?_⟩⟩
    · simp [hb.status.status, ha.running] at hf
    · rintro p (rfl | ⟨rfl, htaken⟩)
      · exact absurd rfl (hj p)
      · simp [hz p rfl] at htaken
    · rw [hb.pc, ha.pc_succ]
  | jump p =>
    obtain ⟨hp, hjump⟩ := effectOf_eq_jump he
    refine ⟨fun hf => ?_, fun _ => ⟨i, hi, ?_, ?_, fun hj hz _ => ?_⟩⟩
    · simp [commit, ha.running] at hf
    · intro q hq
      rw [jump_target_unique hq hjump]
      exact ⟨hp, rfl⟩
    · rcases hjump with rfl | ⟨rfl, -⟩ <;> exact nofun
    · rcases hjump with e | ⟨e, htaken⟩
      · exact absurd e (hj p)
      · simp [hz p e] at htaken
  | halt =>
    obtain rfl := effectOf_eq_halt he
    refine ⟨fun _ => rfl, fun _ => ⟨.hlt, hi, ?_, fun _ => rfl, fun _ _ e => absurd rfl e⟩⟩
    rintro p (e | ⟨e, -⟩) <;> cases e
  | fault c => exact ⟨fun _ => rfl, fun hne => absurd rfl hne⟩

/-- Settles O28: END, BUDGET and fault entry touch no input of the host, nor does any commit. -/
theorem programNeverChanges : Obligations.ProgramNeverChanges := by
  intro s t hst
  obtain ⟨-, ⟨-, rfl⟩ | ⟨-, -, rfl⟩ | ⟨-, c, -, rfl⟩ | ⟨-, i, -, rfl⟩⟩ := step_cases hst
  · exact ⟨rfl, rfl, rfl⟩
  · exact ⟨rfl, rfl, rfl⟩
  · exact (takeFault_spec c _ s).kept.inputs
  · exact commit_hostInputsKept i _ s

/-- Settles O30: the only register write goes through port W, which the RA field addresses. -/
theorem onlyRAIsWritten : Obligations.OnlyRAIsWritten := by
  intro i s t hex q hq
  rw [exec_next hex, readReg_commit_effectOf]
  cases hw : portW i s with
  | none => rfl
  | some rv =>
    refine readReg_writeReg_ne s rv.1 q rv.2 fun e => hq ?_
    rw [e]
    exact writable_of_portW hw

/-- Settles O32, by the kind of the instruction's effect. -/
theorem onlyBookkeepingWritesZeroFlag : Obligations.OnlyBookkeepingWritesZeroFlag := by
  intro i s t hrun hex
  obtain rfl := exec_next hex
  cases he : effectOf i s with
  | seq wr mw dz =>
    obtain ⟨-, -, -, hj, hz, hh⟩ := effectOf_eq_seq he
    have hb := commit_seq_bookkept i wr mw dz s
    refine ⟨?_, fun _ _ _ _ => hb.zf⟩
    rintro (⟨p, rfl⟩ | ⟨p, rfl, htaken⟩ | rfl | hf)
    · exact absurd rfl (hj p)
    · simp [hz p rfl] at htaken
    · exact absurd rfl hh
    · simp [hb.status.status, hrun] at hf
  | jump p =>
    refine ⟨fun _ => rfl, fun hj hz _ _ => ?_⟩
    obtain ⟨-, e | ⟨e, htaken⟩⟩ := effectOf_eq_jump he
    · exact absurd e (hj p)
    · simp [hz p e] at htaken
  | halt => exact ⟨fun _ => rfl, fun _ _ hh _ => absurd (effectOf_eq_halt he) hh⟩
  | fault c => exact ⟨fun _ => rfl, fun _ _ _ hf => absurd rfl hf⟩

/-- Settles O33: without `zf` the effect is the same, and its commit does not read `zf`. -/
theorem onlyJumpzReadsZeroFlag : Obligations.OnlyJumpzReadsZeroFlag := by
  intro i s t u b hi ht hu
  rw [exec_next ht, exec_next hu, effectOf_withZf s b hi]
  exact commit_withZf i (effectOf i s) s b

/-- Settles O34: the effects agree constructor by constructor (`effectOf_congr`). -/
theorem effectReadsOnlyThePorts : Obligations.EffectReadsOnlyThePorts :=
  fun _ _ _ hA hB hm hz hN => effectOf_congr hA hB hm hz hN

/-- Settles O35: the registers through port W, the cells and `dm_rdata` through the data-memory port. -/
theorem portsCarryTheEffect : Obligations.PortsCarryTheEffect := by
  intro i s t hex
  obtain rfl := exec_next hex
  refine ⟨rfl, fun q => ?_, dmem_read_commit_effectOf i s, dmemPort_rdata i s, portW_of_read_enabled⟩
  rw [readReg_commit_effectOf]
  cases portW i s with
  | none => rfl
  | some rv => exact readReg_writeReg s rv.1 q rv.2

/-- Settles O45: each form writes its register, and the unit's operation on equal operands is evaluated. -/
theorem sameRegisterTwice : Obligations.SameRegisterTwice := by
  intro i s
  refine ⟨⟨_, ?_, runsWriting_of_effectOf rfl⟩, ?_, ⟨_, aluMul_toNat _ _, runsWriting_of_effectOf rfl⟩,
    fun hne => ?_, fun hz => ?_, ?_, ?_, ?_⟩
  · rw [aluAdd_toNat, two_mul]
  · exact runsWriting_of_effectOf (by rw [effectOf, effectSub, aluSub_self])
  · exact runsWriting_of_effectOf (by rw [effectOf, effectDiv, if_neg hne, aluDiv_self hne])
  · obtain ⟨t, ht, hrest⟩ := perform_noWrite (.div i i) true s
    exact ⟨t, by rw [exec_eq, effectOf, effectDiv, if_pos hz]; exact ht, hrest⟩
  · exact runsWriting_of_effectOf (by rw [effectOf, effectAnd, BitVec.and_self])
  · exact runsWriting_of_effectOf (by rw [effectOf, effectOr, BitVec.or_self])
  · exact runsWriting_of_effectOf (by rw [effectOf, effectXor, BitVec.xor_self]; rfl)

/-- Settles O15: the result copies the state, cell `a` stands at place `a`, and the codes are evaluated. -/
theorem hostResultShowsTheState : Obligations.HostResultShowsTheState := by
  refine ⟨fun s => ⟨?_, fun a ha => ?_, rfl, rfl, rfl, rfl, rfl, rfl, rfl, rfl, rfl⟩, by decide, by decide⟩
  · simp [State.result, Config.dmemCells]
  · simp [State.result, Config.dmemCells, ha]

end Sys2Proof.Machine
end

section
/-! SUPPORT. The byte image of a program, what an instruction makes of other memory contents, and the statements
about memory (20_memory). -/

namespace Sys2Proof.Machine

/-! ### A word as two bytes (R47) -/

/-- The high byte and the low byte of a word, as numbers. -/
theorem bytesOfWord_toNat (w : Word) : (bytesOfWord w).map (·.toNat) = [w.toNat / 256, w.toNat % 256] := by
  have hw := w.isLt
  simp only [bytesOfWord, List.map_cons, List.map_nil, BitVec.extractLsb'_toNat, Nat.shiftRight_eq_div_pow,
    List.cons.injEq, and_true]
  omega

/-- The two bytes of a word make the word. -/
@[simp] theorem wordOfBytes_extract (w : Word) : wordOfBytes (w.extractLsb' 8 8) (w.extractLsb' 0 8) = w := by
  rw [wordOfBytes, BitVec.extractLsb'_append_extractLsb'_eq_extractLsb' (start₁ := 0) (start₂ := 8) rfl]
  exact BitVec.extractLsb'_eq_self

/-- The image of a program begins with the two bytes of its first word, the high one first. -/
theorem imageOfWords_cons (w : Word) (ws : List Word) :
    imageOfWords (w :: ws) = w.extractLsb' 8 8 :: w.extractLsb' 0 8 :: imageOfWords ws := rfl

/-- Reading an image undoes writing it. -/
theorem wordsOfImage_imageOfWords (ws : List Word) : wordsOfImage (imageOfWords ws) = some ws := by
  induction ws with
  | nil => rfl
  | cons w ws ih => rw [imageOfWords_cons, wordsOfImage, ih, wordOfBytes_extract]; rfl

/-! ### Steps by their cause (R89, R90) -/

theorem step_of_atEnd {s : State} (hrun : s.status = .running) (hp : s.pc = s.progLen) :
    step s = .next s.endRun := by
  simp [step, hrun, State.atEnd, hp]

theorem step_of_budgetSpent {s : State} (hrun : s.status = .running) (hp : s.pc ≠ s.progLen)
    (hb : s.steps = s.maxSteps) : step s = .next s.budgetRun := by
  simp [step, hrun, State.atEnd, hp, State.budgetSpent, hb]

/-! ### Other instruction memory (R39, R45) -/

/-- No effect reads instruction memory. -/
theorem effectOf_withImem (i : Instr) (s : State) (m : ProgMemory) :
    effectOf i { s with imem := m } = effectOf i s :=
  effectOf_congr (fun _ _ => rfl) (fun _ _ => rfl) (MemKept.refl s) rfl rfl

/-- A commit neither reads nor writes instruction memory. -/
theorem commit_withImem (i : Instr) (e : Effect) (s : State) (m : ProgMemory) :
    commit i e { s with imem := m } = { commit i e s with imem := m } := by
  cases e with
  | seq wr mw dz => cases wr <;> cases mw <;> cases dz <;> rfl
  | jump p => rfl
  | halt => rfl
  | fault c => rfl

/-- Running a fetched word does not read instruction memory again. -/
theorem runWord_withImem {w : Word} {s t : State} (h : runWord w s = .next t) (m : ProgMemory) :
    runWord w { s with imem := m } = .next { t with imem := m } := by
  unfold runWord at h ⊢
  cases hd : decode w with
  | illegal c => simp only [hd] at h ⊢; cases h; rfl
  | instr i =>
    simp only [hd] at h ⊢
    rw [exec_next h, exec_eq, effectOf_withImem, commit_withImem]

/-! ### Other data memory (R42) -/

/-- A LOAD's effect, by its address check (R106). -/
theorem effectLoad_eq (d : Reg) (a : Byte) (s : State) :
    effectLoad d a s = if a.toNat ≤ 63 then writesReg d (s.dmem.read a.toNat) else .fault .memRange := by
  rcases effectLoad_cases d a s with ⟨ha, he⟩ | ⟨ha, he⟩
  · rw [he, if_pos ha]
  · rw [he, if_neg (by omega)]

/-- After a LOAD of a cell that exists its register holds the cell (R106). -/
theorem commit_effectOf_load_readReg (d : Reg) {a : Byte} (s : State) (ha : a.toNat ≤ 63) :
    (commit (.load d a) (effectOf (.load d a) s) s).readReg d = s.dmem.read a.toNat := by
  rw [effectOf, effectLoad_eq, if_pos ha, writesReg, commit_seq_readReg, commitReg_some,
    readReg_writeReg_same]

/-- Only LOAD's effect reads data memory. -/
theorem effectOf_withDmem {i : Instr} (s : State) (m : Memory) (h : ∀ d a, i ≠ .load d a) :
    effectOf i { s with dmem := m } = effectOf i s := by
  cases i with
  | load d a => exact absurd rfl (h d a)
  | _ => rfl

/-- A LOAD's effect reads its own cell alone. -/
theorem effectOf_load_withDmem (d : Reg) (a : Byte) (s : State) (m : Memory)
    (h : m.read a.toNat = s.dmem.read a.toNat) :
    effectOf (.load d a) { s with dmem := m } = effectOf (.load d a) s := by
  simp only [effectOf, effectLoad_eq, h]

/-- Data memory apart, a commit leaves the same state whatever data memory holds. -/
theorem commit_withDmem (i : Instr) (e : Effect) (s : State) (m : Memory) :
    { commit i e { s with dmem := m } with dmem := (commit i e s).dmem } = commit i e s := by
  cases e with
  | seq wr mw dz => cases wr <;> cases mw <;> cases dz <;> rfl
  | jump p => rfl
  | halt => rfl
  | fault c => rfl

/-- Where the effect is the same with other data memory, so is the next state, data memory apart. -/
theorem exec_withDmem {i : Instr} {s t u : State} {m : Memory}
    (he : effectOf i { s with dmem := m } = effectOf i s) (ht : exec i s = .next t)
    (hu : exec i { s with dmem := m } = .next u) : { u with dmem := t.dmem } = t := by
  rw [exec_next ht, exec_next hu, he]
  exact commit_withDmem i (effectOf i s) s m

/-- A STORE keeps data memory, or changes the one cell its address check gives (R42, R43). -/
theorem commit_effectOf_store_mem (r : Reg) (a : Byte) (s : State) :
    MemKept s (commit (.store r a) (effectOf (.store r a) s) s) ∨
      ∃ c, dataAddr a = some c ∧ MemKeptBut c.toNat s (commit (.store r a) (effectOf (.store r a) s) s) := by
  by_cases ha : a.toNat ≤ 63
  · have hc := dataAddr_of_le ha
    refine .inr ⟨_, hc, fun k hk => ?_⟩
    rw [(dataAddr_eq_some hc).2] at hk
    rw [commit_effectOf_store_read, if_neg fun e => hk e.2]
  · refine .inl fun k => ?_
    rw [commit_effectOf_store_read, if_neg fun e => ha e.1]

/-! ### The statements -/

/-- Settles O9, by induction on the program for the image: each word is its two bytes put together again. -/
theorem byteImageKeepsTheProgram : Obligations.ByteImageKeepsTheProgram := by
  refine ⟨bytesOfWord_toNat, wordsOfImage_imageOfWords, fun w ws => ?_⟩
  rw [imageOfWords_cons, decodeBytes, wordOfBytes_extract]

/-- Settles O29: END and BUDGET read no word, and a step that fetches reads the word at `pc < N` alone. -/
theorem wordsBeyondTheProgramDoNotMatter : Obligations.WordsBeyondTheProgramDoNotMatter := by
  intro s t m hm hst
  have fetching (ha : AboutToFetch s) : step { s with imem := m } = .next { t with imem := m } := by
    have ha' : AboutToFetch { s with imem := m } := ⟨ha.running, ha.pc, ha.budget⟩
    rw [step_of_aboutToFetch ha] at hst
    rw [step_of_aboutToFetch ha', hm _ ha.pc]
    exact runWord_withImem hst m
  obtain ⟨hrun, ⟨hp, rfl⟩ | ⟨hp, hb, rfl⟩ | ⟨ha, -⟩ | ⟨ha, -⟩⟩ := step_cases hst
  · exact step_of_atEnd hrun hp
  · exact step_of_budgetSpent hrun hp hb
  · exact fetching ha
  · exact fetching ha

/-- Settles O31: the writes by what a commit does to data memory, the reads by what an effect reads of it. -/
theorem onlyLoadAndStoreReachDataMemory : Obligations.OnlyLoadAndStoreReachDataMemory := by
  refine ⟨fun i s t ht hne => ?_, fun r a s t ht => ?_, fun i s t u m hne => ?_, fun d a s t u m hm => ?_⟩
  · rw [exec_next ht]
    exact memKept_of_eq (commit_effectOf_dmem_of_ne_store s hne)
  · rw [exec_next ht]
    exact commit_effectOf_store_mem r a s
  · exact exec_withDmem (effectOf_withDmem s m hne)
  · exact exec_withDmem (effectOf_load_withDmem d a s m hm)

/-- Settles O40: the LOAD's register holds the cell, and the cell the stored register. -/
theorem loadAfterStoreGivesTheValue : Obligations.LoadAfterStoreGivesTheValue := by
  intro r d a s t u ha hstore hload
  rw [exec_next hload, commit_effectOf_load_readReg d t ha, exec_next hstore, commit_effectOf_store_read,
    if_pos ⟨ha, rfl⟩]

end Sys2Proof.Machine
end

section
/-! SUPPORT. Which words a format admits, the decoder and the table's rows through it, the raw records; then the
statements about the encoding (30_encoding R56..R72). -/

namespace Sys2Proof

/-! ### Decoding an encoded word (R70, R87) -/

theorem decodeRegImm_packWord (mk : Reg → Byte → Instr) (c : BitVec 4) (a : Reg) (v : Byte) :
    decodeRegImm mk (packWord c (regField a) v) = some (mk a v) :=
  decodeRegImm_eq_some.2 ⟨by simp, a, by simp, by simp⟩

theorem decodeRegReg_packWord (mk : Reg → Reg → Instr) (c : BitVec 4) (a b : Reg) :
    decodeRegReg mk (packWord c (regField a) (regImm b)) = some (mk a b) :=
  decodeRegReg_eq_some.2 ⟨by simp, a, b, by simp, by simp, rfl⟩

theorem decodeReg_packWord (mk : Reg → Instr) (c : BitVec 4) (a : Reg) :
    decodeReg mk (packWord c (regField a) 0) = some (mk a) :=
  decodeReg_eq_some.2 ⟨by simp, by simp, a, by simp, rfl⟩

theorem decodeTarget_packWord (mk : Byte → Instr) (c : BitVec 4) (t : Byte) :
    decodeTarget mk (packWord c 0 t) = some (mk t) :=
  decodeTarget_eq_some.2 ⟨by simp, by simp, by simp⟩

theorem decodeNone_packWord (i : Instr) (c : BitVec 4) : decodeNone i (packWord c 0 0) = some i :=
  decodeNone_eq_some.2 ⟨by simp, by simp, by simp, rfl⟩

@[simp] theorem fieldOP_encode (i : Instr) : fieldOP (encode i) = i.opcode.code := by
  cases i <;> exact fieldOP_packWord _ _ _

/-- The operand fields of an instruction's word give the instruction, by the format of its opcode. -/
theorem decodeOperands_encode (i : Instr) : decodeOperands i.opcode (encode i) = some i := by
  cases i with
  | mov a v | load a v | store a v => exact decodeRegImm_packWord _ _ a v
  | add a b | sub a b | mul a b | div a b | and a b | or a b | xor a b => exact decodeRegReg_packWord _ _ a b
  | not a => exact decodeReg_packWord _ _ a
  | jump t | jumpz t => exact decodeTarget_packWord _ _ t
  | hlt => exact decodeNone_packWord _ _

/-! ### The words a format admits (R58, R60, R67) -/

/-- The operand fields of the word pass the checks of the format: register fields name registers, must-be-zero
fields are zero. -/
def Format.Admits : Format → Word → Prop
  | .ri, w | .rm, w => fieldZ w = 0 ∧ ∃ a, fieldRA w = regField a
  | .rr, w => fieldZ w = 0 ∧ fieldHI5 w = 0 ∧ (∃ a, fieldRA w = regField a) ∧ ∃ b, fieldRB w = regField b
  | .r1, w => fieldZ w = 0 ∧ fieldIMM8 w = 0 ∧ ∃ a, fieldRA w = regField a
  | .j, w => fieldRA w = 0 ∧ fieldZ w = 0
  | .n, w => fieldRA w = 0 ∧ fieldZ w = 0 ∧ fieldIMM8 w = 0

/-- The must-be-zero fields of an admitted word (R67). -/
theorem Format.Admits.reserved {f : Format} {w : Word} (h : f.Admits w) :
    fieldZ w = 0 ∧ (f = .j ∨ f = .n → fieldRA w = 0) ∧ (f = .r1 ∨ f = .n → fieldIMM8 w = 0) ∧
      (f = .rr → fieldHI5 w = 0) := by
  cases f <;> simp_all [Format.Admits]

theorem regField_toNat_le (r : Reg) : (regField r).toNat ≤ 5 := by
  rw [regField_toNat]; omega

/-- The register fields of an admitted word hold 0..5 (R60). -/
theorem Format.Admits.registers {f : Format} {w : Word} (h : f.Admits w) :
    (f ≠ .j → f ≠ .n → (fieldRA w).toNat ≤ 5) ∧ (f = .rr → (fieldRB w).toNat ≤ 5) := by
  cases f with
  | ri | rm =>
    obtain ⟨-, a, ha⟩ := h
    exact ⟨fun _ _ => ha ▸ regField_toNat_le a, nofun⟩
  | rr =>
    obtain ⟨-, -, ⟨a, ha⟩, b, hb⟩ := h
    exact ⟨fun _ _ => ha ▸ regField_toNat_le a, fun _ => hb ▸ regField_toNat_le b⟩
  | r1 =>
    obtain ⟨-, -, a, ha⟩ := h
    exact ⟨fun _ _ => ha ▸ regField_toNat_le a, nofun⟩
  | j => exact ⟨fun hj _ => absurd rfl hj, nofun⟩
  | n => exact ⟨fun _ hn => absurd rfl hn, nofun⟩

/-! ### The decoder through the formats (R70) -/

theorem exists_decodeRegImm_iff (mk : Reg → Byte → Instr) (w : Word) :
    (∃ i, decodeRegImm mk w = some i) ↔ Format.ri.Admits w := by
  simp [decodeRegImm_eq_some, Format.Admits]

theorem exists_decodeRegReg_iff (mk : Reg → Reg → Instr) (w : Word) :
    (∃ i, decodeRegReg mk w = some i) ↔ Format.rr.Admits w := by
  simp only [decodeRegReg_eq_some, fieldIMM8_eq_regImm, Format.Admits]
  grind

theorem exists_decodeReg_iff (mk : Reg → Instr) (w : Word) :
    (∃ i, decodeReg mk w = some i) ↔ Format.r1.Admits w := by
  simp [decodeReg_eq_some, Format.Admits]

theorem exists_decodeTarget_iff (mk : Byte → Instr) (w : Word) :
    (∃ i, decodeTarget mk w = some i) ↔ Format.j.Admits w := by
  simp [decodeTarget_eq_some, Format.Admits]

theorem exists_decodeNone_iff (i : Instr) (w : Word) :
    (∃ j, decodeNone i w = some j) ↔ Format.n.Admits w := by
  simp [decodeNone_eq_some, Format.Admits]

/-- The operand fields of a word decode exactly when the opcode's format admits the word. -/
theorem exists_decodeOperands_iff (op : Opcode) (w : Word) :
    (∃ i, decodeOperands op w = some i) ↔ op.format.Admits w := by
  cases op with
  | mov | load | store => exact exists_decodeRegImm_iff _ w
  | add | sub | mul | div | and | or | xor => exact exists_decodeRegReg_iff _ w
  | not => exact exists_decodeReg_iff _ w
  | jump | jumpz => exact exists_decodeTarget_iff _ w
  | hlt => exact exists_decodeNone_iff _ w

/-- A decoded instruction has the opcode its word's code names: it encodes to that word. -/
theorem opcode_code_of_decode {w : Word} {i : Instr} (h : decode w = .instr i) :
    fieldOP w = i.opcode.code := by
  rw [← Machine.encode_of_decode h, fieldOP_encode]

theorem Opcode.code_injective : Function.Injective Opcode.code := fun o p h =>
  Option.some.inj (by rw [← opcodeOf_code o, h, opcodeOf_code])

/-- A word decodes to an instruction of an opcode exactly when it has the opcode's code and fits its format. -/
theorem exists_decode_iff (op : Opcode) (w : Word) :
    (∃ i, decode w = .instr i ∧ i.opcode = op) ↔ fieldOP w = op.code ∧ op.format.Admits w := by
  rw [← exists_decodeOperands_iff]
  constructor
  · rintro ⟨i, hi, rfl⟩
    obtain ⟨op, hop, hj⟩ := decode_eq_instr.1 hi
    have hcode := opcode_code_of_decode hi
    obtain rfl : op = i.opcode := Opcode.code_injective (hop ▸ hcode)
    exact ⟨hcode, i, hj⟩
  · rintro ⟨hop, i, hi⟩
    have hd := decode_eq_instr.2 ⟨op, hop, hi⟩
    exact ⟨i, hd, Opcode.code_injective (opcode_code_of_decode hd ▸ hop)⟩

/-- A word with a legal opcode whose fields fail the checks of its format is illegal with ILLEGAL_OPERAND (R67). -/
theorem decode_of_not_admits {op : Opcode} {w : Word} (hop : fieldOP w = op.code)
    (h : ¬ op.format.Admits w) : decode w = .illegal .illegalOperand := by
  rw [← exists_decodeOperands_iff, ← Option.isSome_iff_exists, Option.not_isSome_iff_eq_none] at h
  exact decode_eq_illegalOperand.2 ⟨op, hop, h⟩

/-! ### The rows of the table through the formats (R63) -/

/-- The bits a format fixes: `OP`, `Z`, and the must-be-zero fields. -/
def Format.fixedBits : Format → Word
  | .ri | .rm => 0xF100
  | .rr => 0xF1F8
  | .r1 => 0xF1FF
  | .j => 0xFF00
  | .n => 0xFFFF

/-- The row of an opcode, by its code and its format. -/
def rowOf (op : Opcode) : TableRow where
  opcode := op
  pattern := packWord op.code 0 0
  mask := op.format.fixedBits
  hasRA := op.format != .j && op.format != .n
  hasRB := op.format == .rr

/-- The table holds the row of each opcode, and no other row. -/
theorem mem_opcodeRows {r : TableRow} : r ∈ opcodeRows ↔ r = rowOf r.opcode := by
  constructor
  · revert r; decide
  · intro h
    rw [h]
    generalize r.opcode = op
    cases op <;> decide

/-- Each field is fixed whole or left whole free by a format. -/
theorem fields_fixedBits (f : Format) :
    fieldOP f.fixedBits = BitVec.allOnes 4 ∧
      fieldRA f.fixedBits = (if f = .j ∨ f = .n then BitVec.allOnes 3 else 0) ∧
      fieldZ f.fixedBits = BitVec.allOnes 1 ∧
      fieldHI5 f.fixedBits = (if f = .rr ∨ f = .r1 ∨ f = .n then BitVec.allOnes 5 else 0) ∧
      fieldRB f.fixedBits = (if f = .r1 ∨ f = .n then BitVec.allOnes 3 else 0) := by
  cases f <;> decide

theorem and_mask_eq_zero_iff {n : Nat} (p : Prop) [Decidable p] (x : BitVec n) :
    x &&& (if p then BitVec.allOnes n else 0) = 0 ↔ (p → x = 0) := by
  split_ifs with h <;> simp [h]

/-- The row of an opcode accepts the words of its code that its format admits. -/
theorem accepts_rowOf_iff (op : Opcode) (w : Word) :
    (rowOf op).accepts w = true ↔ fieldOP w = op.code ∧ op.format.Admits w := by
  obtain ⟨hOP, hRA, hZ, hHI5, hRB⟩ := fields_fixedBits op.format
  have hHI5' : fieldHI5 (packWord op.code 0 0) = 0 := by simp [fieldHI5_eq]
  have hRB' : fieldRB (packWord op.code 0 0) = 0 := by simp [fieldRB_eq]
  rw [accepts_iff]
  simp only [rowOf, hOP, hRA, hZ, hHI5, hRB, hHI5', hRB', and_mask_eq_zero_iff, BitVec.and_allOnes,
    fieldOP_packWord, fieldRA_packWord, fieldZ_packWord]
  cases op.format with
  | ri | rm => simp [Format.Admits, and_assoc]
  | rr => simp [Format.Admits, and_assoc]
  | r1 => simp only [Format.Admits, fieldIMM8_eq_zero]; simp [and_assoc]
  | j => simp [Format.Admits]
  | n => simp only [Format.Admits, fieldIMM8_eq_zero]; simp

/-! ### Raw records (R69) -/

/-- An operand position admits exactly the numbers of its registers, or of the 8-bit values. -/
theorem admits_reg_iff (v : Int) : OperandKind.reg.admits v = true ↔ ∃ r : Reg, v = r.val := by
  simp only [OperandKind.admits, decide_eq_true_eq]
  constructor
  · exact fun h => ⟨⟨v.toNat, by omega⟩, by simp; omega⟩
  · rintro ⟨r, rfl⟩; omega

theorem admits_byte_iff (v : Int) : OperandKind.byte.admits v = true ↔ ∃ b : Byte, v = b.toNat := by
  simp only [OperandKind.admits, decide_eq_true_eq]
  constructor
  · exact fun h => ⟨BitVec.ofNat 8 v.toNat, by simp; omega⟩
  · rintro ⟨b, rfl⟩; have := b.isLt; omega

theorem operandsWellFormed_nil_iff (vs : List Int) : operandsWellFormed [] vs = true ↔ vs = [] := by
  cases vs <;> simp [operandsWellFormed]

theorem operandsWellFormed_cons_iff (k : OperandKind) (ks : List OperandKind) (vs : List Int) :
    operandsWellFormed (k :: ks) vs = true ↔
      ∃ v us, vs = v :: us ∧ k.admits v = true ∧ operandsWellFormed ks us = true := by
  cases vs <;> simp [operandsWellFormed]

theorem operandsWellFormed_regByte_iff {vs : List Int} : operandsWellFormed [.reg, .byte] vs = true ↔
    ∃ (a : Reg) (v : Byte), vs = [(a.val : Int), (v.toNat : Int)] := by
  simp [operandsWellFormed_cons_iff, operandsWellFormed_nil_iff, admits_reg_iff, admits_byte_iff]

theorem operandsWellFormed_regReg_iff {vs : List Int} : operandsWellFormed [.reg, .reg] vs = true ↔
    ∃ (a b : Reg), vs = [(a.val : Int), (b.val : Int)] := by
  simp [operandsWellFormed_cons_iff, operandsWellFormed_nil_iff, admits_reg_iff]

theorem operandsWellFormed_reg_iff {vs : List Int} : operandsWellFormed [.reg] vs = true ↔
    ∃ (a : Reg), vs = [(a.val : Int)] := by
  simp [operandsWellFormed_cons_iff, operandsWellFormed_nil_iff, admits_reg_iff]

theorem operandsWellFormed_byte_iff {vs : List Int} : operandsWellFormed [.byte] vs = true ↔
    ∃ (v : Byte), vs = [(v.toNat : Int)] := by
  simp [operandsWellFormed_cons_iff, operandsWellFormed_nil_iff, admits_byte_iff]

/-- The record of an instruction passes the check. -/
theorem wellFormed_toRaw (i : Instr) : i.toRaw.wellFormed = true := by
  cases i with
  | mov a v | load a v | store a v => exact operandsWellFormed_regByte_iff.2 ⟨a, v, rfl⟩
  | add a b | sub a b | mul a b | div a b | and a b | or a b | xor a b =>
    exact operandsWellFormed_regReg_iff.2 ⟨a, b, rfl⟩
  | not a => exact operandsWellFormed_reg_iff.2 ⟨a, rfl⟩
  | jump t | jumpz t => exact operandsWellFormed_byte_iff.2 ⟨t, rfl⟩
  | hlt => rfl

/-- A record that passes the check is the record of an instruction. -/
theorem exists_toRaw_of_wellFormed {r : RawRecord} (h : r.wellFormed = true) : ∃ i : Instr, i.toRaw = r := by
  obtain ⟨op, vs⟩ := r
  unfold RawRecord.wellFormed at h
  cases op with
  | mov => obtain ⟨a, v, rfl⟩ := operandsWellFormed_regByte_iff.1 h; exact ⟨.mov a v, rfl⟩
  | load => obtain ⟨a, v, rfl⟩ := operandsWellFormed_regByte_iff.1 h; exact ⟨.load a v, rfl⟩
  | store => obtain ⟨a, v, rfl⟩ := operandsWellFormed_regByte_iff.1 h; exact ⟨.store a v, rfl⟩
  | add => obtain ⟨a, b, rfl⟩ := operandsWellFormed_regReg_iff.1 h; exact ⟨.add a b, rfl⟩
  | sub => obtain ⟨a, b, rfl⟩ := operandsWellFormed_regReg_iff.1 h; exact ⟨.sub a b, rfl⟩
  | mul => obtain ⟨a, b, rfl⟩ := operandsWellFormed_regReg_iff.1 h; exact ⟨.mul a b, rfl⟩
  | div => obtain ⟨a, b, rfl⟩ := operandsWellFormed_regReg_iff.1 h; exact ⟨.div a b, rfl⟩
  | and => obtain ⟨a, b, rfl⟩ := operandsWellFormed_regReg_iff.1 h; exact ⟨.and a b, rfl⟩
  | or => obtain ⟨a, b, rfl⟩ := operandsWellFormed_regReg_iff.1 h; exact ⟨.or a b, rfl⟩
  | xor => obtain ⟨a, b, rfl⟩ := operandsWellFormed_regReg_iff.1 h; exact ⟨.xor a b, rfl⟩
  | not => obtain ⟨a, rfl⟩ := operandsWellFormed_reg_iff.1 h; exact ⟨.not a, rfl⟩
  | jump => obtain ⟨v, rfl⟩ := operandsWellFormed_byte_iff.1 h; exact ⟨.jump v, rfl⟩
  | jumpz => obtain ⟨v, rfl⟩ := operandsWellFormed_byte_iff.1 h; exact ⟨.jumpz v, rfl⟩
  | hlt => obtain rfl := (operandsWellFormed_nil_iff vs).1 h; exact ⟨.hlt, rfl⟩

theorem toInstr_toRaw (i : Instr) : i.toRaw.toInstr = some i := by
  rw [RawRecord.toInstr, if_pos (wellFormed_toRaw i)]
  cases i <;> simp [Instr.toRaw, Instr.opcode]

/-! ### The statements -/

/-- Settles O1, by the format of the instruction's opcode (`decodeOperands_encode`). -/
theorem decodeOfEncodeIsTheInstruction : Obligations.DecodeOfEncodeIsTheInstruction :=
  fun i => decode_eq_instr.2 ⟨i.opcode, fieldOP_encode i, decodeOperands_encode i⟩

/-- Settles O2: a legal word is the packing of its own fields (`encode_of_decode`). -/
theorem encodeOfDecodeIsTheWord : Obligations.EncodeOfDecodeIsTheWord :=
  fun _ _ h => Machine.encode_of_decode h

/-- Settles O3: a row is its opcode's, and accepts the words that decode to its opcode. -/
theorem legalWordsAreTheTableRows : Obligations.LegalWordsAreTheTableRows := by
  refine ⟨rfl, fun w r hr hw => ?_, fun w hw => ?_⟩
  · rw [mem_opcodeRows.1 hr, accepts_rowOf_iff] at hw
    exact (exists_decode_iff r.opcode w).2 hw
  · cases hd : decode w with
    | illegal c => exact ⟨c, rfl⟩
    | instr i =>
      have hacc := (accepts_rowOf_iff i.opcode w).2 ((exists_decode_iff i.opcode w).1 ⟨i, hd, rfl⟩)
      rw [hw _ (mem_opcodeRows.2 rfl)] at hacc
      cases hacc

/-- Settles O4: the rows' opcodes differ, and a row fixes the code of its opcode. -/
theorem tableRowsDoNotOverlap : Obligations.TableRowsDoNotOverlap := by
  have hne : opcodeRows.Pairwise fun r q => r.opcode ≠ q.opcode := by decide
  refine hne.imp_of_mem fun {r q} hr hq hrq w ⟨hrw, hqw⟩ => hrq ?_
  rw [mem_opcodeRows.1 hr, accepts_rowOf_iff] at hrw
  rw [mem_opcodeRows.1 hq, accepts_rowOf_iff] at hqw
  exact Opcode.code_injective (hrw.1.symm.trans hqw.1)

/-- Settles O5: the code alone decides ILLEGAL_OPCODE; with a legal code only the operand fields can fail. -/
theorem illegalOpcodeBeforeOperand : Obligations.IllegalOpcodeBeforeOperand := by
  refine fun w => ⟨decode_eq_illegalOpcode.2, fun h0 h14 hno => ?_⟩
  cases hop : opcodeOf (fieldOP w) with
  | none => exact ((opcodeOf_eq_none.1 hop).elim h0 h14).elim
  | some op =>
    have hcode := (opcodeOf_eq_some hop).symm
    refine decode_of_not_admits hcode fun hadm => ?_
    obtain ⟨i, hi, -⟩ := (exists_decode_iff op w).2 ⟨hcode, hadm⟩
    exact hno i hi

/-- Settles O6: the format admits only words whose must-be-zero fields are zero. -/
theorem nonzeroReservedFieldIsIllegal : Obligations.NonzeroReservedFieldIsIllegal := by
  refine fun w op hop hbad => decode_of_not_admits hop fun hadm => ?_
  obtain ⟨hZ, hRA, hIMM8, hHI5⟩ := hadm.reserved
  rcases hbad with h | ⟨hf, h⟩ | ⟨hf, h⟩ | ⟨hf, h⟩
  · exact h hZ
  · exact h (hRA hf)
  · exact h (hIMM8 hf)
  · exact h (hHI5 hf)

/-- Settles O7: the format admits only words whose register fields hold 0..5. -/
theorem registerFieldsNameSixRegisters : Obligations.RegisterFieldsNameSixRegisters := by
  refine ⟨fun k r => ?_, fun w op hop hbad => decode_of_not_admits hop fun hadm => ?_⟩
  · rw [regOf_eq_some, ← BitVec.toNat_inj, regField_toNat]
  · obtain ⟨hRA, hRB⟩ := hadm.registers
    rcases hbad with ⟨hj, hn, h⟩ | ⟨hf, h⟩
    · have := hRA hj hn; omega
    · have := hRB hf; omega

/-- Settles O8: the decoder is evaluated on each of the ten words. -/
theorem sampleWordsDecode : Obligations.SampleWordsDecode := by
  unfold Obligations.SampleWordsDecode
  decide

/-- Settles O10: an operand list passes exactly when each operand is a register's or an 8-bit value's number. -/
theorem wellFormedRecordsAreInstructions : Obligations.WellFormedRecordsAreInstructions :=
  ⟨fun _ => ⟨exists_toRaw_of_wellFormed, fun ⟨i, hi⟩ => hi ▸ wellFormed_toRaw i⟩, toInstr_toRaw⟩

end Sys2Proof
end

section
/-! SUPPORT. What an assembly gives, as a program and as an error, and the canonical text of a program read back;
then the statements about the assembler (30_encoding R73..R87). -/

namespace Sys2Proof.Machine

/-! ### Case folding (R76) -/

theorem upperChar_of_lower {c : Char} (h : 97 ≤ c.toNat ∧ c.toNat ≤ 122) :
    (upperChar c).toNat = c.toNat - 32 := by
  have hv : (c.toNat - 32).isValidChar := .inl (by omega)
  rw [upperChar, if_pos h, Char.toNat_ofNat, if_pos hv]

theorem upperChar_of_not_lower {c : Char} (h : ¬ (97 ≤ c.toNat ∧ c.toNat ≤ 122)) : upperChar c = c :=
  if_neg h

@[simp] theorem upperChar_upperChar (c : Char) : upperChar (upperChar c) = upperChar c := by
  by_cases h : 97 ≤ c.toNat ∧ c.toNat ≤ 122
  · exact upperChar_of_not_lower (by rw [upperChar_of_lower h]; omega)
  · rw [upperChar_of_not_lower h, upperChar_of_not_lower h]

@[simp] theorem parseOpcode_map_upperChar (t : Text) : parseOpcode (t.map upperChar) = parseOpcode t := by
  simp [parseOpcode, Function.comp_def]

/-- A first token selects the opcode whose mnemonic is its upper case. -/
theorem parseOpcode_eq_some {t : Text} {o : Opcode} :
    parseOpcode t = some o ↔ t.map upperChar = opcodeText o := by
  constructor
  · intro h
    have := List.find?_some h
    exact (eq_of_beq this).symm
  · intro h
    rw [← parseOpcode_map_upperChar, h, parseOpcode_opcodeText]

/-- A register token is not case-insensitive (R76, R78). -/
theorem parseReg_lower_r (cs : Text) : parseReg ('r' :: cs) = none := by
  match cs with
  | [] => rfl
  | [_] => simp [parseReg]
  | _ :: _ :: _ => rfl

/-! ### Operand values (R80, R81) -/

theorem encodeLiteral_toNat_eq (v : Int) : ((encodeLiteral v).toNat : Int) = v % 256 := by
  rw [encodeLiteral, BitVec.toNat_ofInt]
  omega

theorem encodeAddress_of_mem {v : Int} (h : 0 ≤ v ∧ v ≤ 254) : ((encodeAddress v).toNat : Int) = v := by
  rw [encodeAddress, if_pos h, BitVec.toNat_ofInt]
  omega

theorem encodeAddress_of_not_mem {v : Int} (h : ¬ (0 ≤ v ∧ v ≤ 254)) : encodeAddress v = 0xFF := if_neg h

/-- 255 is no target of any program, whose length is at most 255. -/
theorem targetInRange_255 (n : Byte) : targetInRange 0xFF n = false := by
  have := n.isLt
  simp [targetInRange]; omega

/-! ### What an assembly gives (R82, R83, R84) -/

/-- Why assembly stops at a line with `k` instructions before it: under strict the line fails, or the line gives
an instruction and 255 have come already. -/
def LineStops (policy : AsmPolicy) (k : Nat) (l : Text) (e : AsmError) : Prop :=
  (policy = .strict ∧ lineError l = some e) ∨
    (e = .programTooLong ∧ k = 255 ∧ (lineInstr l).isSome = true)

/-- The first of the lines stops the assembly, or assembly goes on after its instruction, where it has one. -/
theorem assembleFrom_cons_cases (policy : AsmPolicy) (n : Nat) {done : List Instr} (l : Text) (ls : List Text)
    (hdone : done.length ≤ 255) :
    (∃ e, assembleFrom policy n done (l :: ls) = .error n e ∧ LineStops policy done.length l e) ∨
      ((policy = .strict → lineError l = none) ∧ (done ++ (lineInstr l).toList).length ≤ 255 ∧
        assembleFrom policy n done (l :: ls) =
          assembleFrom policy (n + 1) (done ++ (lineInstr l).toList) ls) := by
  obtain ⟨i, hi, he⟩ | ⟨e, hi, he⟩ | ⟨hi, he⟩ := line_cases l
  · rw [assembleFrom_instr hi]
    split_ifs with hroom
    · have hroom : done.length < 255 := hroom
      exact .inr ⟨fun _ => he, by simp [hi]; omega, by simp [hi]⟩
    · have hfull : ¬ done.length < 255 := hroom
      exact .inl ⟨_, rfl, .inr ⟨rfl, by omega, by simp [hi]⟩⟩
  · rw [assembleFrom_error he]
    cases policy with
    | strict => exact .inl ⟨e, rfl, .inl ⟨rfl, he⟩⟩
    | legacyDrop => exact .inr ⟨nofun, by simpa [hi] using hdone, by simp [hi]⟩
  · rw [assembleFrom_blank hi he]
    exact .inr ⟨fun _ => he, by simpa [hi] using hdone, by simp [hi]⟩

theorem filterMap_lineInstr_cons (l : Text) (ls : List Text) :
    (l :: ls).filterMap lineInstr = (lineInstr l).toList ++ ls.filterMap lineInstr := by
  cases hi : lineInstr l <;> simp [hi]

/-- A program that comes out is what stood before and the instructions of the lines, in order; it fits, and
under strict no line failed. -/
theorem assembleFrom_eq_program {policy : AsmPolicy} {ls : List Text} {n : Nat} {done is : List Instr}
    (hdone : done.length ≤ 255) (h : assembleFrom policy n done ls = .program is) :
    is = done ++ ls.filterMap lineInstr ∧ is.length ≤ 255 ∧
      (policy = .strict → ∀ l ∈ ls, lineError l = none) := by
  induction ls generalizing n done with
  | nil => cases h; simpa using hdone
  | cons l ls ih =>
    obtain ⟨e, hstop, -⟩ | ⟨hl, hroom, hgo⟩ := assembleFrom_cons_cases policy n l ls hdone
    · rw [hstop] at h; cases h
    · obtain ⟨his, hfit, hls⟩ := ih hroom (hgo ▸ h)
      refine ⟨?_, hfit, fun hp => List.forall_mem_cons.2 ⟨hl hp, hls hp⟩⟩
      rw [his, filterMap_lineInstr_cons, List.append_assoc]

/-- An error that comes out is that of a line at which assembly stops, and its number is that line's. -/
theorem assembleFrom_eq_error {policy : AsmPolicy} {ls : List Text} {n m : Nat} {done : List Instr}
    {e : AsmError} (hdone : done.length ≤ 255) (h : assembleFrom policy n done ls = .error m e) :
    ∃ before l after, ls = before ++ l :: after ∧ m = n + before.length ∧
      (policy = .strict → ∀ b ∈ before, lineError b = none) ∧
      LineStops policy (done.length + (before.filterMap lineInstr).length) l e := by
  induction ls generalizing n done with
  | nil => cases h
  | cons l ls ih =>
    obtain ⟨f, hstop, hwhy⟩ | ⟨hl, hroom, hgo⟩ := assembleFrom_cons_cases policy n l ls hdone
    · rw [hstop] at h; cases h
      exact ⟨[], l, ls, rfl, rfl, by simp, hwhy⟩
    · obtain ⟨before, k, after, rfl, rfl, hbefore, hwhy⟩ := ih hroom (hgo ▸ h)
      refine ⟨l :: before, k, after, rfl, by simp; omega,
        fun hp => List.forall_mem_cons.2 ⟨hl hp, hbefore hp⟩, ?_⟩
      rwa [filterMap_lineInstr_cons, List.length_append, ← Nat.add_assoc, ← List.length_append]

/-- A text whose instructions fit, and without a failing line under strict, assembles to its instructions. -/
theorem assemble_of_fits {policy : AsmPolicy} {src : Text}
    (hgood : policy = .strict → ∀ l ∈ splitLines src, lineError l = none)
    (hfit : ((splitLines src).filterMap lineInstr).length ≤ 255) :
    assemble policy src = .program ((splitLines src).filterMap lineInstr) := by
  cases h : assemble policy src with
  | program is => rw [(assembleFrom_eq_program (Nat.zero_le _) h).1, List.nil_append]
  | error n e =>
    obtain ⟨before, l, after, hls, -, -, ⟨hp, he⟩ | ⟨-, hfull, hi⟩⟩ :=
      assembleFrom_eq_error (Nat.zero_le _) h
    · rw [hgood hp l (by simp [hls])] at he; cases he
    · obtain ⟨i, hi⟩ := Option.isSome_iff_exists.1 hi
      simp [hls, hi] at hfit hfull
      omega

/-! ### The canonical text of a program (R84, R86) -/

/-- The operands of an instruction's canonical text are read back, by the format of its opcode. -/
theorem assembleOperands_operandTexts (i : Instr) :
    assembleOperands i.opcode (operandTexts i) = .instr i := by
  cases i with
  | mov | load | store => simp [Instr.opcode, operandTexts, assembleOperands, lineRegInt]
  | add | sub | mul | div | and | or | xor =>
    simp [Instr.opcode, operandTexts, assembleOperands, lineRegReg]
  | not => simp [Instr.opcode, operandTexts, assembleOperands, lineReg]
  | jump | jumpz => simp [Instr.opcode, operandTexts, assembleOperands, lineTarget]
  | hlt => rfl

@[simp] theorem assembleLine_operandTexts (i : Instr) :
    assembleLine (opcodeText i.opcode) (operandTexts i) = .instr i := by
  rw [assembleLine, parseOpcode_opcodeText]
  exact assembleOperands_operandTexts i

@[simp] theorem lineInstr_render (i : Instr) : lineInstr (Instr.render i) = some i := by
  simp [lineInstr, tokens_render]

@[simp] theorem lineError_render (i : Instr) : lineError (Instr.render i) = none := by
  simp [lineError, tokens_render]

/-- The lines of a program's text: one for each instruction, and the blank one after the last line feed. -/
theorem splitLines_renderProgram (is : List Instr) :
    splitLines (renderProgram is) = is.map Instr.render ++ [[]] := by
  induction is with
  | nil => rfl
  | cons i is ih =>
    have hcons : renderProgram (i :: is) = Instr.render i ++ '\n' :: renderProgram is := by
      simp [renderProgram]
    rw [hcons, splitLines_line _ _ (render_no_lineFeed i), ih, List.map_cons, List.cons_append]

theorem filterMap_lineInstr_renderProgram (is : List Instr) :
    (splitLines (renderProgram is)).filterMap lineInstr = is := by
  have hblank : lineInstr [] = none := rfl
  simp [splitLines_renderProgram, List.filterMap_map, hblank]

theorem lineError_of_mem_renderProgram {is : List Instr} {l : Text}
    (h : l ∈ splitLines (renderProgram is)) : lineError l = none := by
  rw [splitLines_renderProgram, List.mem_append, List.mem_map, List.mem_singleton] at h
  obtain ⟨i, -, rfl⟩ | rfl := h
  · exact lineError_render i
  · rfl

/-! ### The statements -/

/-- Settles O53: selecting is by the upper case (`parseOpcode_eq_some`), which folds once. -/
theorem mnemonicsAreCaseInsensitive : Obligations.MnemonicsAreCaseInsensitive := by
  refine ⟨fun _ _ => parseOpcode_eq_some, parseOpcode_map_upperChar,
    fun _ => ⟨upperChar_of_lower, upperChar_of_not_lower⟩, by decide, fun t ht args => ?_, parseReg_lower_r⟩
  cases h : parseOpcode t with
  | none => simp only [assembleLine, h]
  | some o => exact absurd (parseOpcode_eq_some.1 h) (ht o)

/-- Settles O54: the remainder is below 256, so its low eight bits are itself. -/
theorem literalsAreReducedModulo256 : Obligations.LiteralsAreReducedModulo256 := encodeLiteral_toNat_eq

/-- Settles O55: 255 is no cell's address and no program's index. -/
theorem addressesOutsideTheFieldNameNothing : Obligations.AddressesOutsideTheFieldNameNothing := by
  refine fun v => ⟨encodeAddress_of_mem, fun h => ?_⟩
  rw [encodeAddress_of_not_mem h]
  exact ⟨rfl, dataAddr_of_gt (by decide), targetInRange_255⟩

/-- Settles O56: each instruction is taken only while there is room (`assembleFrom_eq_program`). -/
theorem assembledProgramFits : Obligations.AssembledProgramFits :=
  fun _ _ _ h => (assembleFrom_eq_program (Nat.zero_le _) h).2.1

/-- Settles O57: nothing but the length can stop a legacy_drop assembly. -/
theorem legacyDropKeepsTheGoodLines : Obligations.LegacyDropKeepsTheGoodLines := by
  refine fun src => ⟨assemble_of_fits nofun, fun hlong => ?_⟩
  cases h : assemble .legacyDrop src with
  | program is =>
    obtain ⟨his, hfit, -⟩ := assembleFrom_eq_program (Nat.zero_le _) h
    rw [his, List.nil_append] at hfit
    omega
  | error n e =>
    obtain ⟨_, _, _, -, -, -, ⟨hp, -⟩ | ⟨rfl, -⟩⟩ := assembleFrom_eq_error (Nat.zero_le _) h
    · cases hp
    · exact ⟨n, rfl⟩

/-- Settles O58, by what a program and an error that come out say about the lines. -/
theorem strictStopsAtTheFirstBadLine : Obligations.StrictStopsAtTheFirstBadLine := by
  refine fun src => ⟨fun hgood => assemble_of_fits fun _ => hgood, fun is h => ?_, fun ⟨l, hl, hbad⟩ => ?_,
    fun n e h => ?_⟩
  · obtain ⟨his, hfit, hgood⟩ := assembleFrom_eq_program (Nat.zero_le _) h
    exact ⟨hgood rfl, his, hfit⟩
  · cases h : assemble .strict src with
    | program is =>
      obtain ⟨-, -, hgood⟩ := assembleFrom_eq_program (Nat.zero_le _) h
      exact absurd (hgood rfl l hl) hbad
    | error n e => exact ⟨n, e, rfl⟩
  · obtain ⟨before, l, after, hls, hn, hbefore, hwhy⟩ := assembleFrom_eq_error (Nat.zero_le _) h
    refine ⟨before, l, after, hls, by omega, hbefore rfl, hwhy.imp And.right ?_⟩
    rintro ⟨he, hfull, hi⟩
    exact ⟨he, by simpa using hfull, hi⟩

/-- Settles O59: no line of the canonical text fails, and its instructions are the program's. -/
theorem renderedProgramAssembles : Obligations.RenderedProgramAssembles := by
  intro policy is hlen
  have h := assemble_of_fits (policy := policy) (src := renderProgram is)
    (fun _ _ hl => lineError_of_mem_renderProgram hl)
  rw [filterMap_lineInstr_renderProgram] at h
  exact h hlen

end Sys2Proof.Machine
end

section
/-! SUPPORT. What a step does to the run status, STEPS and the trace, and the run to its end; then the statements
about the execution cycle (40_execution_cycle). -/

namespace Sys2Proof.Machine

/-! ### The fetched word (R92, R93) -/

theorem runWord_of_instr {w : Word} {i : Instr} (s : State) (h : decode w = .instr i) : runWord w s = exec i s := by
  simp [runWord, h]

theorem runWord_of_illegal {w : Word} {c : Cause} (s : State) (h : decode w = .illegal c) :
    runWord w s = .next (takeFault c w s) := by
  simp [runWord, h]

/-- Every word has a next state: an illegal one takes a fault, an instruction commits its effect. -/
theorem exists_runWord_eq_next (w : Word) (s : State) : ∃ t, runWord w s = .next t := by
  cases h : decode w with
  | illegal c => exact ⟨_, runWord_of_illegal s h⟩
  | instr i => exact ⟨_, (runWord_of_instr s h).trans (exec_eq i s)⟩

/-! ### The END and BUDGET transitions (R89, R90) -/

theorem endRun_spec (s : State) : EndedWith .ended s s.endRun :=
  ⟨rfl, rfl, rfl, rfl, ⟨RegsKept.refl s, MemKept.refl s, rfl, rfl, rfl, rfl, ⟨rfl, rfl, rfl⟩⟩⟩

theorem budgetRun_spec (s : State) : EndedWith .budget s s.budgetRun :=
  ⟨rfl, rfl, rfl, rfl, ⟨RegsKept.refl s, MemKept.refl s, rfl, rfl, rfl, rfl, ⟨rfl, rfl, rfl⟩⟩⟩

theorem pc_ne_progLen_of_lt {s : State} (h : s.pc.toNat < s.progLen.toNat) : s.pc ≠ s.progLen :=
  fun e => h.ne (congrArg BitVec.toNat e)

/-- Within the invariant, a `pc` that is not `N` is an index of the program (R22). -/
theorem RunInv.pc_lt {s : State} (h : RunInv s) (hp : s.pc ≠ s.progLen) : s.pc.toNat < s.progLen.toNat :=
  lt_of_le_of_ne h.pc fun e => hp (BitVec.eq_of_toNat_eq e)

/-! ### Status and STEPS after a commit (R101) -/

/-- From a running state a commit either completes the instruction, which counts it and leaves the run going or
halted, or faults and leaves STEPS. -/
theorem commit_status_steps (i : Instr) (e : Effect) {s : State} (hrun : s.status = .running) :
    (((commit i e s).status = .running ∨ (commit i e s).status = .halted) ∧
        (commit i e s).steps = s.steps + 1) ∨
      ((commit i e s).status = .fault ∧ (commit i e s).steps = s.steps) := by
  cases e with
  | seq wr mw dz =>
    have hb := commit_seq_bookkept i wr mw dz s
    exact .inl ⟨.inl (hb.status.status.trans hrun), hb.steps⟩
  | jump p => exact .inl ⟨.inl hrun, rfl⟩
  | halt => exact .inl ⟨.inr rfl, rfl⟩
  | fault c => exact .inr ⟨rfl, rfl⟩

/-! ### Trace entries (R99, R100) -/

/-- The trace entries an effect of instruction `i` logs, `now` being the registers after it. -/
def Effect.events (i : Instr) (now : RegFile) : Effect → List TraceEntry
  | .seq _ _ dz => (if dz then [.divByZero] else []) ++ [.exec i now]
  | .jump _ => []
  | .halt => []
  | .fault _ => []

/-- A commit appends the entries of its effect. -/
theorem commit_trace (i : Instr) (e : Effect) (s : State) :
    (commit i e s).trace = s.trace ++ e.events i (commit i e s).regs := by
  cases e with
  | seq wr mw dz => rw [(commit_seq_bookkept i wr mw dz s).trace, List.append_assoc, Effect.events]
  | jump p => exact (List.append_nil _).symm
  | halt => exact (List.append_nil _).symm
  | fault c => exact (List.append_nil _).symm

/-- A jump logs nothing, in range or not (R102). -/
theorem events_jumpTo (i : Instr) (now : RegFile) (p n : Byte) : (jumpTo p n).events i now = [] := by
  rcases jumpTo_cases p n with ⟨-, he⟩ | ⟨-, he⟩ <;> rw [he] <;> rfl

/-- The entries of an instruction's effect are those the table of R99 gives the instruction. -/
theorem events_effectOf (i : Instr) (s : State) (now : RegFile) :
    (effectOf i s).events i now = traceEvents i s now := by
  cases i with
  | load d a =>
    rcases effectLoad_cases d a s with ⟨ha, he⟩ | ⟨ha, he⟩ <;> rw [effectOf, he, traceEvents]
    · rw [if_pos ha]; rfl
    · rw [if_neg (by omega)]; rfl
  | store r a =>
    rcases effectStore_cases r a s with ⟨ha, he⟩ | ⟨ha, he⟩ <;> rw [effectOf, he, traceEvents]
    · rw [if_pos ha]; rfl
    · rw [if_neg (by omega)]; rfl
  | div a b => rw [effectOf, effectDiv, traceEvents]; split_ifs <;> rfl
  | jump p => rw [effectOf, effectJump, traceEvents, events_jumpTo]
  | jumpz p =>
    rw [effectOf, effectJumpz, traceEvents]
    split_ifs
    · exact events_jumpTo _ now p s.progLen
    · rfl
  | mov | add | sub | mul | and | or | not | xor | hlt => rfl

/-! ### The run to its end (R103, R104) -/

/-- One step, then the rest of the fuel. -/
theorem runFuel_succ {s t : State} (h : step s = .next t) (k : Nat) : runFuel (k + 1) s = runFuel k t := by
  simp [runFuel, h]

/-- A run that has ended has no step. -/
theorem step_ne_next_of_not_running {s : State} (h : s.status ≠ .running) (t : State) : step s ≠ .next t :=
  fun hst => h (step_cases hst).1

/-- A run that has ended stays as it is. -/
theorem runFuel_of_not_running {s : State} (h : s.status ≠ .running) (k : Nat) : runFuel k s = s := by
  cases k with
  | zero => rfl
  | succ k =>
    rw [runFuel]
    cases hst : step s with
    | next t => exact absurd hst (step_ne_next_of_not_running h t)
    | fault r => rfl
    | refused r => rfl

/-- The run of a launched program (R104). -/
theorem runProgram_of_launch {prog : List Word} {m : Nat} {s : State} (h : State.launch prog m = some s) :
    runProgram prog m = some (runFuel (m + 1) s) := by
  rw [runProgram, h, Option.map_some]

/-- Reset leaves registers, data memory, `zf` and the trace untouched, with no program or with one (R33, R144). -/
theorem untouched_launch (imem : ProgMemory) (n : Byte) (m : Nat) :
    Untouched { State.reset with imem := imem, progLen := n, maxSteps := m } :=
  ⟨show ∀ r : Reg, State.reset.readReg r = 0 by decide, fun _ => rfl, rfl, rfl⟩

/-- The invariant holds at every launch (R142, R144). -/
theorem runInv_of_launch {prog : List Word} {m : Nat} {s : State} (h : State.launch prog m = some s) :
    RunInv s := by
  obtain ⟨hlen, rfl⟩ := launch_eq_some.1 h
  exact {
    pc := Nat.zero_le _
    steps := Nat.zero_le _
    dmem := ⟨.nil, nofun⟩
    imem := loadProgram_wf prog hlen
    zfTrace := .inl (untouched_launch _ _ _)
    traceCount := Nat.zero_le _
    record := ⟨fun _ => ⟨rfl, rfl, rfl⟩, nofun⟩
    status := statusAgrees_of_running rfl }

/-! ### The statements -/

/-- Settles O16: a step that is about to fetch runs the word at `pc`. -/
theorem stepRunsTheDecodedInstruction : Obligations.StepRunsTheDecodedInstruction := by
  intro s i ha hi
  rw [step_of_aboutToFetch ha, runWord_of_instr s hi]

/-- Settles O19: END and BUDGET, fault entry and HLT keep `pc`, a jump goes below `N`, so only the advance of the
bookkeeping reaches `N`. -/
theorem endAtProgramLength : Obligations.EndAtProgramLength := by
  refine ⟨fun s hrun hp => ⟨_, step_of_atEnd hrun hp, endRun_spec s⟩, fun s t hst hne => ?_⟩
  obtain ⟨-, ⟨hp, -⟩ | ⟨-, -, rfl⟩ | ⟨-, c, -, rfl⟩ | ⟨ha, i, hi, rfl⟩⟩ := step_cases hst
  · exact absurd hp hne
  · exact fun hN => absurd hN hne
  · exact fun hN => absurd hN hne
  cases he : effectOf i s with
  | seq wr mw dz =>
    have hb := commit_seq_bookkept i wr mw dz s
    intro hN
    rw [hb.pc, hb.inputs.progLen] at hN
    refine ⟨?_, i, (encode_of_decode hi).symm, ?_⟩
    · rw [← ha.pc_succ, hN]
    · rw [hb.trace, List.getLast?_concat]
  | jump p =>
    obtain ⟨hp, -⟩ := effectOf_eq_jump he
    exact fun hN => absurd (congrArg BitVec.toNat hN) hp.ne
  | halt => exact fun hN => absurd hN hne
  | fault c => exact fun hN => absurd hN hne

/-- Settles O20: the budget is compared before the word is fetched. -/
theorem budgetEndsTheRun : Obligations.BudgetEndsTheRun :=
  fun s hrun hp hb => ⟨_, step_of_budgetSpent hrun (pc_ne_progLen_of_lt hp) hb, budgetRun_spec s⟩

/-- Settles O21: every step starts from a running state. -/
theorem noStepAfterTheRun : Obligations.NoStepAfterTheRun :=
  fun _ h => ⟨step_ne_next_of_not_running h, runFuel_of_not_running h⟩

/-- Settles O22: the invariant leaves END, BUDGET and a fetch below `N`, and every fetched word has a next state. -/
theorem runningStateHasAStep : Obligations.RunningStateHasAStep := by
  intro s h hrun
  by_cases hp : s.pc = s.progLen
  · exact ⟨_, step_of_atEnd hrun hp⟩
  by_cases hb : s.steps = s.maxSteps
  · exact ⟨_, step_of_budgetSpent hrun hp hb⟩
  · rw [step_of_aboutToFetch ⟨hrun, h.pc_lt hp, hb⟩]
    exact exists_runWord_eq_next _ s

/-- Settles O25: only a commit counts, and it does so exactly when it does not fault. -/
theorem stepsCountsCompletedInstructions : Obligations.StepsCountsCompletedInstructions := by
  intro s t hst
  obtain ⟨hrun, ⟨-, rfl⟩ | ⟨-, -, rfl⟩ | ⟨-, c, -, rfl⟩ | ⟨-, i, -, rfl⟩⟩ := step_cases hst
  · exact ⟨by simp, fun _ => rfl⟩
  · exact ⟨by simp, fun _ => rfl⟩
  · exact ⟨by simp, fun _ => rfl⟩
  · obtain ⟨hgo | hgo, hsteps⟩ | ⟨hgo, hsteps⟩ := commit_status_steps i (effectOf i s) hrun <;>
      simp [hgo, hsteps]

/-- Settles O27: a commit appends the entries of its effect, and every other transition keeps the trace. -/
theorem traceEntriesOfAStep : Obligations.TraceEntriesOfAStep := by
  refine ⟨fun i s t hex => ?_, fun s t hst hno => ?_⟩
  · obtain rfl := exec_next hex
    rw [commit_trace, events_effectOf]
  · obtain ⟨hrun, ⟨-, rfl⟩ | ⟨-, -, rfl⟩ | ⟨-, c, -, rfl⟩ | ⟨-, i, hi, rfl⟩⟩ := step_cases hst
    · rfl
    · rfl
    · rfl
    · obtain hdec | hend := hno
      · exact absurd hi (hdec i)
      · obtain ⟨hgo | hgo, -⟩ | ⟨hgo, -⟩ := commit_status_steps i (effectOf i s) hrun <;> simp [hgo] at hend

/-- By induction on the fuel: a state of the invariant whose remaining budget is below the fuel runs to its end,
because a step that leaves the run going uses up one unit of the budget. -/
theorem status_runFuel_ne_running {k : Nat} {s : State} (h : RunInv s) (hk : s.maxSteps - s.steps < k) :
    (runFuel k s).status ≠ .running := by
  induction k generalizing s with
  | zero => omega
  | succ k ih =>
    by_cases hrun : s.status = .running
    · obtain ⟨t, hst⟩ := runningStateHasAStep s h hrun
      rw [runFuel_succ hst]
      by_cases ht : t.status = .running
      · have hinv := stepKeepsTheInvariant s t h hst
        have hcount := (stepsCountsCompletedInstructions s t hst).1 (.inl ht)
        have hmax := (programNeverChanges s t hst).maxSteps
        have hle := hinv.steps
        exact ih hinv (by omega)
      · rwa [runFuel_of_not_running ht]
    · rwa [runFuel_of_not_running hrun]

/-- Settles O24: counting is O25's, and the bound is the induction on the fuel (`status_runFuel_ne_running`), from
a launch with the whole budget left. -/
theorem runEndsWithinTheBudget : Obligations.RunEndsWithinTheBudget := by
  refine ⟨fun s t hst ht => (stepsCountsCompletedInstructions s t hst).1 (.inl ht),
    fun s h => status_runFuel_ne_running h (Nat.lt_succ_self _), fun prog m hlen => ?_⟩
  have hl : State.launch prog m = some _ := launch_eq_some.2 ⟨hlen, rfl⟩
  exact ⟨_, runProgram_of_launch hl, status_runFuel_ne_running (runInv_of_launch hl) (Nat.lt_succ_self m)⟩

end Sys2Proof.Machine
end

section
/-! SUPPORT. The word and the source line of an instruction as the statements about single instructions write them, an
instruction's own fault, the effects of the data transfers; then the statements about them (41_data_transfer). -/

namespace Sys2Proof.Machine

/-! ### The word of an instruction as a bit pattern (R63, R87) -/

/-- The bit pattern filled with the fields of the encoder's table is the instruction's word. -/
theorem wordOf_eq_encode (i : Instr) :
    wordOf i.opcode.code.toNat (Laws.raOf i).toNat (Laws.immOf i).toNat = encode i := by
  rw [wordOf_eq_packWord]
  cases i <;> rfl

/-- The same with the register that the RA field names. -/
theorem wordOf_eq_encode_of_ra {i : Instr} {r : Reg} (h : Laws.raOf i = regField r) :
    wordOf i.opcode.code.toNat r.val (Laws.immOf i).toNat = encode i := by
  rw [← wordOf_eq_encode, h, regField_toNat]

theorem wordOf_mov (d : Reg) (lit : Byte) : wordOf 0x1 d.val lit.toNat = encode (.mov d lit) :=
  wordOf_eq_encode_of_ra (i := .mov d lit) rfl

theorem wordOf_load (d : Reg) (a : Byte) : wordOf 0x2 d.val a.toNat = encode (.load d a) :=
  wordOf_eq_encode_of_ra (i := .load d a) rfl

theorem wordOf_store (r : Reg) (a : Byte) : wordOf 0x3 r.val a.toNat = encode (.store r a) :=
  wordOf_eq_encode_of_ra (i := .store r a) rfl

/-! ### The source line of an instruction (R77, R82) -/

/-- A line with a canonical mnemonic is assembled by its opcode's operand form. -/
theorem assembleLine_opcodeText (o : Opcode) (args : List Text) :
    assembleLine (opcodeText o) args = assembleOperands o args := by
  rw [assembleLine, parseOpcode_opcodeText]

/-- A register's name and any integer token make the instruction of the register and the integer's encoding. -/
theorem lineRegInt_regText (mk : Reg → Byte → Instr) (enc : Int → Byte) (r : Reg) {v : Text} {n : Int}
    (h : parseInt v = some n) : lineRegInt mk enc [regText r, v] = .instr (mk r (enc n)) := by
  simp only [lineRegInt, parseReg_regText, h]

/-! ### Instructions by their effect (R93) -/

/-- An instruction whose effect is a fault takes it, with its own word recorded (R126). -/
theorem runsIntoFault_of_effectOf {i : Instr} {c : Cause} {s : State} (h : effectOf i s = .fault c) :
    RunsIntoFault i c (encode i) s := by
  obtain ⟨t, ht, hfault⟩ := perform_fault i c s
  exact ⟨t, by rw [exec_eq, h]; exact ht, hfault⟩

/-- An instruction whose effect writes one cell has that write and the bookkeeping (R94, R95). -/
theorem exec_of_writesCell {i : Instr} {c : BitVec 6} {v : Byte} {s : State}
    (h : effectOf i s = .seq none (some (c, v)) false) :
    ∃ t, exec i s = .next t ∧ t.dmem.read c.toNat = v ∧ MemKeptBut c.toNat s t ∧ RegsKept s t ∧
      Bookkept i [] s t := by
  obtain ⟨t, ht, hrest⟩ := perform_writesCell i c v s
  exact ⟨t, by rw [exec_eq, h]; exact ht, hrest⟩

/-- A LOAD of a cell that exists writes the cell's value to its register (R106). -/
theorem effectOf_load_of_le (d : Reg) {a : Byte} (s : State) (h : a.toNat ≤ 63) :
    effectOf (.load d a) s = writesReg d (s.dmem.read a.toNat) := by
  rw [effectOf, effectLoad_eq, if_pos h]

/-- A LOAD of an address that names no cell faults (R43, R106). -/
theorem effectOf_load_of_gt (d : Reg) {a : Byte} (s : State) (h : 64 ≤ a.toNat) :
    effectOf (.load d a) s = .fault .memRange := by
  rw [effectOf, effectLoad_eq, if_neg (by omega)]

/-- A STORE whose address check gives a cell writes its register there (R107). -/
theorem effectOf_store_of_cell (r : Reg) {a : Byte} {c : BitVec 6} (s : State) (h : dataAddr a = some c) :
    effectOf (.store r a) s = .seq none (some (c, s.readReg r)) false := by
  rw [effectOf, effectStore, h]

/-- A STORE to an address that names no cell faults (R43, R107). -/
theorem effectOf_store_of_gt (r : Reg) {a : Byte} (s : State) (h : 64 ≤ a.toNat) :
    effectOf (.store r a) s = .fault .memRange := by
  rw [effectOf, effectStore, dataAddr_of_gt h]

/-! ### The statements -/

/-- Settles O37: MOV's format has `Z` and RA to check, its word and line are its own, and its effect is the write of
the literal. -/
theorem movWritesTheLiteral : Obligations.MovWritesTheLiteral := by
  refine ⟨fun w hop hbad => ?_, fun d => ⟨fun v n hv => ?_, fun lit => ⟨?_, fun s => ?_⟩⟩⟩
  · rcases hbad with hZ | hRA
    · exact nonzeroReservedFieldIsIllegal w .mov hop (.inl hZ)
    · exact registerFieldsNameSixRegisters.2 w .mov hop (.inl ⟨nofun, nofun, hRA⟩)
  · exact (assembleLine_opcodeText .mov _).trans (lineRegInt_regText .mov encodeLiteral d hv)
  · rw [wordOf_mov]
    exact decodeOfEncodeIsTheInstruction _
  · exact runsWriting_of_effectOf rfl

/-- Settles O38: the effect is the write of the cell up to address 63, and the fault from 64 on. -/
theorem loadReadsTheCell : Obligations.LoadReadsTheCell := by
  refine ⟨fun d v n hv => ?_, fun d a => ?_⟩
  · exact (assembleLine_opcodeText .load _).trans (lineRegInt_regText .load encodeAddress d hv)
  · rw [wordOf_load]
    exact ⟨decodeOfEncodeIsTheInstruction _, fun ha s => runsWriting_of_effectOf (effectOf_load_of_le d s ha),
      fun ha s => runsIntoFault_of_effectOf (effectOf_load_of_gt d s ha)⟩

/-- Settles O39: the address check gives the cell of the address up to 63, and there the effect is the write of the
register; from 64 on it is the fault. -/
theorem storeWritesTheCell : Obligations.StoreWritesTheCell := by
  refine ⟨fun r v n hv => ?_, fun r a => ?_⟩
  · exact (assembleLine_opcodeText .store _).trans (lineRegInt_regText .store encodeAddress r hv)
  · rw [wordOf_store]
    refine ⟨decodeOfEncodeIsTheInstruction _, fun c hc => ⟨(dataAddr_eq_some hc).2, fun s => ?_⟩,
      fun ha => ⟨_, dataAddr_of_le ha⟩, fun ha s => ?_⟩
    · exact exec_of_writesCell (effectOf_store_of_cell r s hc)
    · exact runsIntoFault_of_effectOf (effectOf_store_of_gt r s ha)

end Sys2Proof.Machine
end

section
/-! SUPPORT. The word of an instruction of two registers as a bit pattern, the unit's difference and quotient, DIV
by its divisor; then the statements about the arithmetic instructions (42_arithmetic). -/

namespace Sys2Proof.Machine

/-! ### The word of an instruction of two registers (R63, R87) -/

/-- The bit pattern with two register numbers decodes to the instruction whose encoding has these two registers. -/
theorem decode_wordOf_regReg {i : Instr} {a b : Reg} (ha : Laws.raOf i = regField a)
    (hb : Laws.immOf i = regImm b) : decode (wordOf i.opcode.code.toNat a.val b.val) = .instr i := by
  rw [← regImm_toNat b, ← hb, wordOf_eq_encode_of_ra ha]
  exact decodeOfEncodeIsTheInstruction i

/-! ### The arithmetic unit (R110, R112) -/

/-- The non-negative remainder of a difference of two bytes: only a negative one needs the 256. -/
theorem aluSub_toNat (a b : Byte) :
    (aluSub a b).toNat = if a.toNat < b.toNat then a.toNat + 256 - b.toNat else a.toNat - b.toNat := by
  have ha := a.isLt
  have hb := b.isLt
  rw [aluSub, BitVec.toNat_ofInt]
  split_ifs <;> omega

/-- The quotient fits 8 bits, since it is at most the dividend. -/
theorem aluDiv_toNat (a b : Byte) : (aluDiv a b).toNat = a.toNat / b.toNat := by
  have hle : a.toNat / b.toNat ≤ a.toNat := Nat.div_le_self _ _
  rw [aluDiv, BitVec.toNat_ofNat, Nat.mod_eq_of_lt (hle.trans_lt a.isLt)]

/-! ### DIV by its divisor (R112) -/

theorem effectOf_div_of_ne_zero (a : Reg) {b : Reg} {s : State} (h : s.readReg b ≠ 0) :
    effectOf (.div a b) s = writesReg a (aluDiv (s.readReg a) (s.readReg b)) := by
  rw [effectOf, effectDiv, if_neg h]

theorem effectOf_div_of_zero (a : Reg) {b : Reg} {s : State} (h : s.readReg b = 0) :
    effectOf (.div a b) s = .seq none none true := by
  rw [effectOf, effectDiv, if_pos h]

/-- A DIV by zero has the marker and the bookkeeping alone; `zf` is set, because the divisor still holds 0. -/
theorem exec_div_of_zero (a : Reg) {b : Reg} {s : State} (h : s.readReg b = 0) :
    ∃ t, exec (.div a b) s = .next t ∧ RegsKept s t ∧ MemKept s t ∧ t.zf = true ∧
      Bookkept (.div a b) [.divByZero] s t := by
  obtain ⟨t, ht, hregs, hmem, hbook⟩ := perform_noWrite (.div a b) true s
  have hzf : t.zf = true := hbook.zf.2 ⟨b, (hregs b).trans h⟩
  exact ⟨t, by rw [exec_eq, effectOf_div_of_zero a h]; exact ht, hregs, hmem, hzf, hbook⟩

/-! ### The statements -/

/-- Settles O41: the effect is the write of the unit's sum (`aluAdd_toNat`). -/
theorem addIsModulo256 : Obligations.AddIsModulo256 :=
  fun a b => ⟨decode_wordOf_regReg (i := .add a b) rfl rfl, assembleLine_operandTexts (.add a b),
    fun _ => ⟨_, aluAdd_toNat _ _, runsWriting_of_effectOf rfl⟩⟩

/-- Settles O42: the effect is the write of the unit's difference (`aluSub_toNat`). -/
theorem subIsModulo256 : Obligations.SubIsModulo256 :=
  fun a b => ⟨decode_wordOf_regReg (i := .sub a b) rfl rfl, assembleLine_operandTexts (.sub a b),
    fun _ => ⟨_, aluSub_toNat _ _, runsWriting_of_effectOf rfl⟩⟩

/-- Settles O43: the effect is the write of the unit's product (`aluMul_toNat`). -/
theorem mulIsModulo256 : Obligations.MulIsModulo256 :=
  fun a b => ⟨decode_wordOf_regReg (i := .mul a b) rfl rfl, assembleLine_operandTexts (.mul a b),
    fun _ => ⟨_, aluMul_toNat _ _, runsWriting_of_effectOf rfl⟩⟩

/-- Settles O44: with a non-zero divisor the effect is the write of the unit's quotient (`aluDiv_toNat`), with a zero
one it is the marker alone (`exec_div_of_zero`). -/
theorem divFloorsAndRecoversFromZero : Obligations.DivFloorsAndRecoversFromZero := by
  refine fun a b => ⟨decode_wordOf_regReg (i := .div a b) rfl rfl, assembleLine_operandTexts (.div a b),
    fun s hne => ?_, fun s hz => exec_div_of_zero a hz⟩
  have hq := aluDiv_toNat (s.readReg a) (s.readReg b)
  exact ⟨_, hq, hq ▸ Nat.div_le_self _ _, runsWriting_of_effectOf (effectOf_div_of_ne_zero a hne)⟩

end Sys2Proof.Machine
end

section
/-! SUPPORT. The word and the source line of an instruction with a target, the effects of the jumps by target and by
zero flag; then the statements about the control instructions (43_control). -/

namespace Sys2Proof.Machine

/-! ### The word and the source line of an instruction with a target (R63, R82, R87) -/

theorem wordOf_jump (p : Byte) : wordOf 0x8 0 p.toNat = encode (.jump p) := wordOf_eq_encode (.jump p)

theorem wordOf_jumpz (p : Byte) : wordOf 0x9 0 p.toNat = encode (.jumpz p) := wordOf_eq_encode (.jumpz p)

/-- Any integer token makes the instruction of the integer's encoding as a target. -/
theorem lineTarget_of_parseInt (mk : Byte → Instr) {v : Text} {n : Int} (h : parseInt v = some n) :
    lineTarget mk [v] = .instr (mk (encodeAddress n)) := by
  simp only [lineTarget, h]

/-! ### Jumps by their target (R113) -/

theorem jumpTo_of_lt {p n : Byte} (h : p.toNat < n.toNat) : jumpTo p n = .jump p := by
  rcases jumpTo_cases p n with ⟨-, he⟩ | ⟨hle, -⟩
  · exact he
  · exact absurd h hle.not_gt

theorem jumpTo_of_le {p n : Byte} (h : n.toNat ≤ p.toNat) : jumpTo p n = .fault .jumpRange := by
  rcases jumpTo_cases p n with ⟨hlt, -⟩ | ⟨-, he⟩
  · exact absurd hlt h.not_gt
  · exact he

/-- An instruction whose effect is a jump to a target below `N` goes there and bypasses the bookkeeping (R102). -/
theorem exec_of_jumpTo_lt {i : Instr} {p : Byte} {s : State} (h : effectOf i s = jumpTo p s.progLen)
    (hp : p.toNat < s.progLen.toNat) : ∃ t, exec i s = .next t ∧ Jumped p s t := by
  obtain ⟨t, ht, hjumped⟩ := perform_jump i p s
  exact ⟨t, by rw [exec_eq, h, jumpTo_of_lt hp]; exact ht, hjumped⟩

/-- With any other target it takes the fault JUMP_RANGE, a target of `N` included. -/
theorem runsIntoFault_of_jumpTo_le {i : Instr} {p : Byte} {s : State} (h : effectOf i s = jumpTo p s.progLen)
    (hp : s.progLen.toNat ≤ p.toNat) : RunsIntoFault i .jumpRange (encode i) s :=
  runsIntoFault_of_effectOf (h.trans (jumpTo_of_le hp))

/-! ### JUMPZ by the zero flag (R114) -/

theorem effectOf_jumpz_of_zf (p : Byte) {s : State} (h : s.zf = true) :
    effectOf (.jumpz p) s = jumpTo p s.progLen := by
  rw [effectOf, effectJumpz, if_pos h]

/-- Not taken, the target has no part in the effect. -/
theorem effectOf_jumpz_of_not_zf (p : Byte) {s : State} (h : s.zf = false) :
    effectOf (.jumpz p) s = bookkeepingOnly := by
  rw [effectOf, effectJumpz, if_neg (ne_true_of_eq_false h)]

/-- An instruction whose effect is the bookkeeping alone keeps registers and memory (R95). -/
theorem exec_of_bookkeepingOnly {i : Instr} {s : State} (h : effectOf i s = bookkeepingOnly) :
    ∃ t, exec i s = .next t ∧ RegsKept s t ∧ MemKept s t ∧ Bookkept i [] s t := by
  obtain ⟨t, ht, hrest⟩ := perform_noWrite i false s
  exact ⟨t, by rw [exec_eq, h]; exact ht, hrest⟩

/-! ### The statements -/

/-- Settles O46: JUMP's effect is the jump to its target, in every state. -/
theorem jumpGoesToTheTarget : Obligations.JumpGoesToTheTarget := by
  refine ⟨fun v n hv => ?_, fun p => ?_⟩
  · exact (assembleLine_opcodeText .jump _).trans (lineTarget_of_parseInt .jump hv)
  · rw [wordOf_jump]
    exact ⟨decodeOfEncodeIsTheInstruction _, fun s => ⟨exec_of_jumpTo_lt rfl, runsIntoFault_of_jumpTo_le rfl⟩⟩

/-- Settles O47: with `zf` set JUMPZ's effect is that same jump, with `zf` clear it is the bookkeeping alone. -/
theorem jumpzFollowsTheZeroFlag : Obligations.JumpzFollowsTheZeroFlag := by
  refine ⟨fun v n hv => ?_, fun p => ?_⟩
  · exact (assembleLine_opcodeText .jumpz _).trans (lineTarget_of_parseInt .jumpz hv)
  · rw [wordOf_jumpz]
    exact ⟨decodeOfEncodeIsTheInstruction _, fun s =>
      ⟨fun hz => exec_of_jumpTo_lt (effectOf_jumpz_of_zf p hz),
        fun hz => runsIntoFault_of_jumpTo_le (effectOf_jumpz_of_zf p hz),
        fun hz => exec_of_bookkeepingOnly (effectOf_jumpz_of_not_zf p hz)⟩⟩

end Sys2Proof.Machine
end

section
/-! SUPPORT. The word of NOT as a bit pattern; then the statements about the logical instructions (44_logical). -/

namespace Sys2Proof.Machine

/-- NOT's `IMM8` is zero (R67, R87). -/
theorem wordOf_not (a : Reg) : wordOf 0xC a.val 0 = encode (.not a) :=
  wordOf_eq_encode_of_ra (i := .not a) rfl

/-! ### The statements -/

/-- Settles O48: the effect is the write of the bit vectors' and, whose bits are the and of theirs. -/
theorem andIsBitwise : Obligations.AndIsBitwise :=
  fun a b => ⟨decode_wordOf_regReg (i := .and a b) rfl rfl, assembleLine_operandTexts (.and a b),
    fun _ => ⟨_, fun k => BitVec.getElem_and k.isLt, runsWriting_of_effectOf rfl⟩⟩

/-- Settles O49: the effect is the write of the bit vectors' or, whose bits are the or of theirs. -/
theorem orIsBitwise : Obligations.OrIsBitwise :=
  fun a b => ⟨decode_wordOf_regReg (i := .or a b) rfl rfl, assembleLine_operandTexts (.or a b),
    fun _ => ⟨_, fun k => BitVec.getElem_or k.isLt, runsWriting_of_effectOf rfl⟩⟩

/-- Settles O50: the effect is the write of the bit vectors' exclusive or, whose bits are set where theirs differ. -/
theorem xorIsBitwise : Obligations.XorIsBitwise :=
  fun a b => ⟨decode_wordOf_regReg (i := .xor a b) rfl rfl, assembleLine_operandTexts (.xor a b),
    fun _ => ⟨_, fun k => BitVec.getElem_xor k.isLt, runsWriting_of_effectOf rfl⟩⟩

/-- Settles O51: `IMM8` is a must-be-zero field of NOT's format, and the effect is the write of the bit vector's
complement, which is 255 minus its value (`BitVec.toNat_not`). -/
theorem notIsOnesComplement : Obligations.NotIsOnesComplement := by
  refine ⟨fun w hop hne => ?_, fun a => ⟨?_, assembleLine_operandTexts (.not a), fun s => ?_⟩⟩
  · exact nonzeroReservedFieldIsIllegal w .not hop (.inr (.inr (.inl ⟨.inl rfl, hne⟩)))
  · rw [wordOf_not]
    exact decodeOfEncodeIsTheInstruction _
  · exact ⟨_, BitVec.toNat_not, runsWriting_of_effectOf rfl⟩

end Sys2Proof.Machine
end

section
/-! SUPPORT. The one word and the one source line of HLT; then the statement about the system instruction
(45_system). -/

namespace Sys2Proof.Machine

/-! ### The word and the source line of HLT (R63, R77, R87) -/

theorem wordOf_hlt : wordOf 0xF 0 0 = encode .hlt := wordOf_eq_encode .hlt

/-- Format N leaves no field free, so code 15 has one legal word, HLT's own (R67). -/
theorem eq_encode_hlt_of_admits {w : Word} (hop : fieldOP w = Opcode.hlt.code) (h : Opcode.hlt.format.Admits w) :
    w = encode .hlt := by
  obtain ⟨hRA, hZ, hIMM⟩ := h
  calc w = packWord (fieldOP w) (fieldRA w) (fieldIMM8 w) := (packWord_fields w hZ).symm
    _ = packWord Opcode.hlt.code 0 0 := by rw [hop, hRA, hIMM]

/-- A line of HLT with any operand token fails (R77). -/
theorem assembleLine_hlt_cons (x : Text) (xs : List Text) :
    assembleLine (opcodeText .hlt) (x :: xs) = .fails .arity :=
  (assembleLine_opcodeText .hlt _).trans rfl

/-! ### The statement -/

/-- Settles O52: a word of code 15 that is not HLT's own fails a field check of format N; the effect is the halt,
whose commit sets STATE and counts, and every step starts from a running state (`step_ne_next_of_not_running`). -/
theorem hltHaltsTheRun : Obligations.HltHaltsTheRun := by
  refine ⟨?_, fun w hop hne => ?_, assembleLine_operandTexts .hlt, assembleLine_hlt_cons, fun s => ?_⟩
  · rw [wordOf_hlt]
    exact decodeOfEncodeIsTheInstruction _
  · exact decode_of_not_admits (op := .hlt) hop fun h => hne (eq_encode_hlt_of_admits hop h)
  · exact ⟨_, exec_eq .hlt s, rfl, rfl, rfl, rfl, rfl, rfl, rfl, rfl, regsKept_of_eq rfl, memKept_of_eq rfl,
      commit_hostInputsKept .hlt .halt s, step_ne_next_of_not_running nofun⟩

end Sys2Proof.Machine
end

section
/-! SUPPORT. The effects whose commit ends the run in FAULT, and the instructions that have them; then the statements
about the faults (60_exceptions). -/

namespace Sys2Proof.Machine

/-! ### The commit of a fault (R88, R126) -/

/-- From a running state only the commit of a fault ends the run in FAULT. -/
theorem eq_fault_of_commit_status {i : Instr} {e : Effect} {s : State} (hrun : s.status = .running)
    (h : (commit i e s).status = .fault) : ∃ c, e = .fault c := by
  cases e with
  | seq wr mw dz =>
    have hgo := (commit_seq_bookkept i wr mw dz s).status.status.trans hrun
    exact nomatch hgo.symm.trans h
  | jump p => exact nomatch hrun.symm.trans h
  | halt => exact nomatch h
  | fault c => exact ⟨c, rfl⟩

/-- The cause a commit records is that of its fault. -/
theorem commit_faults_iff (i : Instr) (e : Effect) (c : Cause) {s : State} (hrun : s.status = .running) :
    (commit i e s).status = .fault ∧ (commit i e s).cause = some c ↔ e = .fault c := by
  constructor
  · rintro ⟨hst, hc⟩
    obtain ⟨c', rfl⟩ := eq_fault_of_commit_status hrun hst
    exact congrArg Effect.fault (Option.some.inj hc)
  · rintro rfl
    exact ⟨rfl, rfl⟩

/-! ### The instructions that fault (R125) -/

/-- MEM_RANGE is the effect of a LOAD or STORE of an address that names no cell, and of nothing else. -/
theorem effectOf_eq_memRange_iff (i : Instr) (s : State) :
    effectOf i s = .fault .memRange ↔ ∃ r a, (i = .load r a ∨ i = .store r a) ∧ 64 ≤ a.toNat := by
  constructor
  · intro he
    obtain ⟨-, h⟩ | ⟨hc, -⟩ := effectOf_eq_fault he
    · exact h
    · exact nomatch hc
  · rintro ⟨r, a, rfl | rfl, ha⟩
    · exact effectOf_load_of_gt r s ha
    · exact effectOf_store_of_gt r s ha

/-- JUMP_RANGE is the effect of a JUMP or a taken JUMPZ to a target of `N` or more, and of nothing else. -/
theorem effectOf_eq_jumpRange_iff (i : Instr) (s : State) :
    effectOf i s = .fault .jumpRange ↔
      ∃ p, (i = .jump p ∨ (i = .jumpz p ∧ s.zf = true)) ∧ s.progLen.toNat ≤ p.toNat := by
  constructor
  · intro he
    obtain ⟨hc, -⟩ | ⟨-, h⟩ := effectOf_eq_fault he
    · exact nomatch hc
    · exact h
  · rintro ⟨p, rfl | ⟨rfl, hz⟩, hp⟩
    · exact jumpTo_of_le hp
    · exact (effectOf_jumpz_of_zf p hz).trans (jumpTo_of_le hp)

/-! ### The statements -/

/-- Settles O17: about to fetch, the step runs the word at `pc`, and an illegal word runs into fault entry. -/
theorem illegalWordFaults : Obligations.IllegalWordFaults := by
  intro s c ha hc
  refine ⟨_, ?_, takeFault_spec c _ s⟩
  rw [step_of_aboutToFetch ha, runWord_of_illegal s hc]

/-- Settles O18: END and BUDGET are no faults; a decode fault records the word itself, and an instruction's own fault
the instruction's encoding, which is the word it was decoded from (`encode_of_decode`). -/
theorem everyFaultIsPrecise : Obligations.EveryFaultIsPrecise := by
  intro s t hst hfault
  obtain ⟨hrun, ⟨-, rfl⟩ | ⟨-, -, rfl⟩ | ⟨-, c, -, rfl⟩ | ⟨-, i, hi, rfl⟩⟩ := step_cases hst
  · exact nomatch hfault
  · exact nomatch hfault
  · exact ⟨c, takeFault_spec c _ s⟩
  · obtain ⟨c, he⟩ := eq_fault_of_commit_status hrun hfault
    refine ⟨c, ?_⟩
    rw [he, ← encode_of_decode hi]
    exact takeFault_spec c (encode i) s

/-- Settles O36: the fault a running state ends in is the instruction's effect, and the instructions with a fault as
their effect are known for each cause. -/
theorem executeFaultsAreOutOfRangeOperands : Obligations.ExecuteFaultsAreOutOfRangeOperands := by
  intro i s t hrun hex
  obtain rfl := exec_next hex
  refine ⟨(commit_faults_iff i _ .memRange hrun).trans (effectOf_eq_memRange_iff i s),
    (commit_faults_iff i _ .jumpRange hrun).trans (effectOf_eq_jumpRange_iff i s), fun hmem hjump hfault => ?_⟩
  obtain ⟨c, he⟩ := eq_fault_of_commit_status hrun hfault
  obtain ⟨-, h⟩ | ⟨-, h⟩ := effectOf_eq_fault he
  · exact hmem h
  · exact hjump h

end Sys2Proof.Machine
end

section
/-! SUPPORT. The program length a launch gives to `N`; then the statement about reset (70_reset_and_hazards). -/

namespace Sys2Proof.Machine

/-- `N` holds the length of every program that is launched (R31, R144). -/
theorem toNat_progLen_of_launch {prog : List Word} {m : Nat} {s : State} (h : State.launch prog m = some s) :
    s.progLen.toNat = prog.length := by
  obtain ⟨hlen, rfl⟩ := launch_eq_some.1 h
  exact (BitVec.toNat_ofNat prog.length 8).trans (Nat.mod_eq_of_lt (Nat.lt_succ_of_le hlen))

/-! ### The statements -/

/-- Settles O11: a launch is the reset state with the host's inputs (`launch_eq_some`), its registers and cells are
untouched, and the loaded program reads back at its indices. -/
theorem launchGivesTheResetState : Obligations.LaunchGivesTheResetState := by
  intro prog m hlen
  have hl : State.launch prog m = some _ := launch_eq_some.2 ⟨hlen, rfl⟩
  obtain ⟨hregs, hcells, hzf, htrace⟩ := untouched_launch (loadProgram prog) (BitVec.ofNat 8 prog.length) m
  exact ⟨_, hl, hregs, hcells, rfl, hzf, rfl, rfl, rfl, rfl, rfl, htrace, toNat_progLen_of_launch hl, rfl,
    loadProgram_read prog⟩

end Sys2Proof.Machine
end

section
/-! SUPPORT. The reset state as a launch; then the statements about launch and the invariant of a run
(10_state, 70_reset_and_hazards). -/

namespace Sys2Proof.Machine

/-- Launching no program with no budget gives the reset state: its host inputs are the empty ones (log 2 and 3). -/
theorem launch_nil_zero : State.launch [] 0 = some State.reset := rfl

/-! ### The statements -/

/-- Settles O14: a launch is the reset state with the host's inputs, its memories are canonical and it is untouched
(`runInv_of_launch`). -/
theorem launchMeetsTheInvariant : Obligations.LaunchMeetsTheInvariant :=
  fun _ _ _ => runInv_of_launch

/-- Settles O12: a launch that gives a state has at most 255 words (`launch_eq_some`). -/
theorem longProgramIsNotLaunched : Obligations.LongProgramIsNotLaunched := by
  intro prog m hlong
  refine Option.eq_none_iff_forall_ne_some.2 fun s hs => ?_
  obtain ⟨hlen, -⟩ := launch_eq_some.1 hs
  exact Nat.not_le_of_lt hlong hlen

/-- Settles O13: the reset state is a launch (`launch_nil_zero`), so the invariant holds of it as of every launch. -/
theorem resetMeetsTheInvariant : Obligations.ResetMeetsTheInvariant :=
  runInv_of_launch launch_nil_zero

end Sys2Proof.Machine
end
